-- ==== Sys2Proof/Word.lean ====
section
/-! DEFINITION. The widths of the block's values (00_scope.md R9, R11, R12). -/

namespace Sys2Proof

/-- One byte of a frame. -/
abbrev Byte := BitVec 8

/-- One word of the host register bus (20_memory.md R39). -/
abbrev Word := BitVec 32

/-- A MAC address, byte 0 in bits 47:40 (00_scope.md R12). -/
abbrev Mac := BitVec 48

/-- A VLAN id (00_scope.md R9). -/
abbrev VlanId := BitVec 12

/-- An exit id (00_scope.md R9). -/
abbrev ExitId := BitVec 4

/-- A port id, `PORT_BITS = 5` (00_scope.md R9). -/
abbrev PortId := BitVec 5

/-- The bytes of a frame, first byte on the wire first (00_scope.md R12). -/
abbrev Frame := List Byte

/-- The opcode word `T = rw ‖ addr[11:0]` of a host transaction (30_encoding.md R64). -/
abbrev TWord := BitVec 13

/-- One thing for each value of a port id. -/
abbrev PerPort (α : Type) := Vector α 32

end Sys2Proof
end

