-- ==== Sys2Proof/Config.lean ====
section
/-! DEFINITION. The OPEN parameters of 00_scope.md R9. `ARBITER` is no value: it is left open in the
machine's schedule (Machine/State.lean). -/

namespace Sys2Proof

/-- The OPEN parameters of one block (00_scope.md R9), written so that every term is in the legal
range of that table. -/
structure Params where
  /-- `N_PORTS - 1`. -/
  lastPort : Fin 32
  /-- `CAM_ENTRIES - 1`. -/
  lastCamEntry : Fin 65536
  /-- `MAX_FRAME_BYTES - 18`. -/
  frameRoom : Nat
  /-- `TPID_RESET`. -/
  tpidReset : BitVec 16
deriving DecidableEq, Repr, Inhabited

/-- `N_PORTS`, 1 to 32. -/
def Params.nPorts (c : Params) : Nat := c.lastPort.val + 1

/-- `CAM_ENTRIES`, 1 to 65536. -/
def Params.camEntries (c : Params) : Nat := c.lastCamEntry.val + 1

/-- `MAX_FRAME_BYTES`, at least 18. -/
def Params.maxFrameBytes (c : Params) : Nat := c.frameRoom + 18

/-- The parameters of the block that `State.reset` describes: any legal values, and nothing in Lean
can tell which (00_scope.md R10; assumption log 1). -/
opaque Config.params : Params

end Sys2Proof
end

