-- ==== Sys2Proof/Syntax.lean ====
section
/-! DEFINITION. What the block decodes: frames and host transactions (30_encoding.md), and the
instructions they stand for, one constructor per row of spec/opcode_table.json. -/

namespace Sys2Proof

/-- A host transaction's request (30_encoding.md R64). -/
structure HostReq where
  /-- `rw`: false read, true write. -/
  rw : Bool
  /-- The byte address. -/
  addr : BitVec 12
  /-- The write data, used only when `rw` is 1. -/
  wdata : Word
deriving DecidableEq, Repr

/-- One input that the block decodes (30_encoding.md, introduction). -/
inductive Request where
  /-- A frame taken from the ingress channel of port `p`. -/
  | frame (p : PortId) (raw : Frame)
  /-- A host transaction. -/
  | host (r : HostReq)
deriving DecidableEq, Repr

/-- The instructions: the 7 frame classes of 30_encoding.md R62 with the ingress port and the ingress
bytes, then the 32 host transaction rows of R65 with the operands the row leaves open. -/
inductive Instr where
  | frameOversize (p : PortId) (raw : Frame)
  | frameRunt (p : PortId) (raw : Frame)
  | frameTaggedRunt (p : PortId) (raw : Frame)
  | frameTaggedUcast (p : PortId) (raw : Frame)
  | frameTaggedMcast (p : PortId) (raw : Frame)
  | frameUntaggedUcast (p : PortId) (raw : Frame)
  | frameUntaggedMcast (p : PortId) (raw : Frame)
  | rdId
  | wrId (wdata : Word)
  | rdCtrl
  | wrCtrl (wdata : Word)
  | rdStatus
  | wrStatus (wdata : Word)
  | rdTpid
  | wrTpid (wdata : Word)
  | rdNports
  | wrNports (wdata : Word)
  | rdCamsize
  | wrCamsize (wdata : Word)
  | rdAdminDown
  | wrAdminDown (wdata : Word)
  | rdMode
  | wrMode (wdata : Word)
  | rdCamIndex
  | wrCamIndex (wdata : Word)
  | rdCamDataLo
  | wrCamDataLo (wdata : Word)
  | rdCamDataHi
  | wrCamDataHi (wdata : Word)
  | rdLastDisp
  | wrLastDisp (wdata : Word)
  | rdRxCount
  | rdTxCount
  | rdDropCount
  | rdLearnFailCount
  | wrCounter (counter : BitVec 2) (wdata : Word)
  | rdPortCfg (p : PortId)
  | wrPortCfg (p : PortId) (wdata : Word)
  | busErr (t : TWord)
deriving DecidableEq, Repr

end Sys2Proof
end

