-- ==== Sys2Proof/WellFormed.lean ====
section
/-! DEFINITION. Which instruction terms stand for an input of the block: a frame is of the class its
constructor names (30_encoding.md R62), a port exists (20_memory.md R48), and `BUS_ERR` has an
address that the register map does not hold (20_memory.md R41). -/

namespace Sys2Proof

/-- Port `p` exists: `p < N_PORTS`. -/
def Params.hasPort (c : Params) (p : PortId) : Bool := decide (p.toNat < c.nPorts)

/-- Bytes 12 and 13 exist and equal the marker, high byte first (30_encoding.md R57, R59). -/
def Frame.bearsMarker (marker : BitVec 16) (raw : Frame) : Bool :=
  raw[12]? == some (marker.extractLsb' 8 8) && raw[13]? == some (marker.extractLsb' 0 8)

/-- Byte 0 exists and its bit 0 is `b` (30_encoding.md R60). -/
def Frame.groupBitIs (b : Bool) (raw : Frame) : Bool :=
  raw[0]?.map (·.getLsbD 0) == some b

/-- The register map's word addresses (20_memory.md R41). -/
def Params.mapsAddr (c : Params) (addr : BitVec 12) : Bool :=
  addr.toNat % 4 == 0 &&
    (decide (addr.toNat < 0x040) ||
      (decide (0x100 ≤ addr.toNat) && decide (addr.toNat < 0x180) &&
        decide ((addr.toNat - 0x100) / 4 < c.nPorts)))

/-- An instruction term stands for an input of a block with parameters `c` whose `TPID.MARKER` is
`marker`. -/
def Instr.wellFormed (c : Params) (marker : BitVec 16) : Instr → Bool
  | .frameOversize p raw => c.hasPort p && decide (c.maxFrameBytes < raw.length)
  | .frameRunt p raw => c.hasPort p && decide (raw.length < 14)
  | .frameTaggedRunt p raw =>
      c.hasPort p && decide (raw.length < 18) && raw.bearsMarker marker
  | .frameTaggedUcast p raw =>
      c.hasPort p && decide (18 ≤ raw.length) && decide (raw.length ≤ c.maxFrameBytes) &&
        raw.bearsMarker marker && raw.groupBitIs false
  | .frameTaggedMcast p raw =>
      c.hasPort p && decide (18 ≤ raw.length) && decide (raw.length ≤ c.maxFrameBytes) &&
        raw.bearsMarker marker && raw.groupBitIs true
  | .frameUntaggedUcast p raw =>
      c.hasPort p && decide (14 ≤ raw.length) && decide (raw.length ≤ c.maxFrameBytes) &&
        !raw.bearsMarker marker && raw.groupBitIs false
  | .frameUntaggedMcast p raw =>
      c.hasPort p && decide (14 ≤ raw.length) && decide (raw.length ≤ c.maxFrameBytes) &&
        !raw.bearsMarker marker && raw.groupBitIs true
  | .rdPortCfg p => c.hasPort p
  | .wrPortCfg p _ => c.hasPort p
  | .busErr t => !c.mapsAddr (t.extractLsb' 0 12)
  | .rdId => true
  | .wrId _ => true
  | .rdCtrl => true
  | .wrCtrl _ => true
  | .rdStatus => true
  | .wrStatus _ => true
  | .rdTpid => true
  | .wrTpid _ => true
  | .rdNports => true
  | .wrNports _ => true
  | .rdCamsize => true
  | .wrCamsize _ => true
  | .rdAdminDown => true
  | .wrAdminDown _ => true
  | .rdMode => true
  | .wrMode _ => true
  | .rdCamIndex => true
  | .wrCamIndex _ => true
  | .rdCamDataLo => true
  | .wrCamDataLo _ => true
  | .rdCamDataHi => true
  | .wrCamDataHi _ => true
  | .rdLastDisp => true
  | .wrLastDisp _ => true
  | .rdRxCount => true
  | .rdTxCount => true
  | .rdDropCount => true
  | .rdLearnFailCount => true
  | .wrCounter _ _ => true

end Sys2Proof
end

