-- ==== Sys2Proof/Decode.lean ====
section
/-! DEFINITION. The decoder: frame classes (30_encoding.md R62) and host transaction rows (R64, R65);
the encoder beside it; and the form in which a host transaction lies in a numbered word. -/

namespace Sys2Proof

/-- Byte `i` of a frame. Every caller has checked that it exists (20_memory.md R38); past the end it
reads 0, which no rule of the model uses. -/
def byteAt (raw : Frame) (i : Nat) : Byte := raw.getD i 0

/-- `be16(raw, i)`, a 16-bit big-endian read (00_scope.md R12). -/
def be16 (raw : Frame) (i : Nat) : BitVec 16 := byteAt raw i ++ byteAt raw (i + 1)

/-- `mac(raw, i)`, with `raw[i]` in bits 47:40 (00_scope.md R12). -/
def macAt (raw : Frame) (i : Nat) : Mac :=
  byteAt raw i ++ byteAt raw (i + 1) ++ byteAt raw (i + 2) ++ byteAt raw (i + 3) ++
    byteAt raw (i + 4) ++ byteAt raw (i + 5)

/-- Bit 0 of byte 0, the I/G bit (30_encoding.md R60). -/
def groupBit (raw : Frame) : Bool := (byteAt raw 0).getLsbD 0

/-- The class of an accepted frame: the tests of 30_encoding.md R62 in their order, the first that
holds wins. -/
def decodeFrame (c : Params) (marker : BitVec 16) (p : PortId) (raw : Frame) : Instr :=
  if c.maxFrameBytes < raw.length then .frameOversize p raw
  else if raw.length < 14 then .frameRunt p raw
  else if be16 raw 12 = marker then
    if raw.length < 18 then .frameTaggedRunt p raw
    else if groupBit raw then .frameTaggedMcast p raw
    else .frameTaggedUcast p raw
  else if groupBit raw then .frameUntaggedMcast p raw
  else .frameUntaggedUcast p raw

/-- The opcode word `T = rw ‖ addr[11:0]` (30_encoding.md R64). -/
def HostReq.tword (r : HostReq) : TWord := BitVec.ofBool r.rw ++ r.addr

/-- One row of 30_encoding.md R65. -/
structure HostRow where
  /-- The row's T match. -/
  pattern : TWord
  /-- The row's T mask. -/
  mask : TWord
  /-- The row also requires `p = addr[6:2] < N_PORTS` (30_encoding.md R64). -/
  needsPort : Bool

/-- `addr[6:2]`, the port of a PORT_CFG row. -/
def portField (t : TWord) : PortId := t.extractLsb' 2 5

/-- `addr[3:2]`, the counter that a WR_COUNTER row names. -/
def counterField (t : TWord) : BitVec 2 := t.extractLsb' 2 2

/-- A row matches an opcode word (30_encoding.md R64). -/
def HostRow.hits (c : Params) (t : TWord) (row : HostRow) : Bool :=
  (t &&& row.mask == row.pattern) && (!row.needsPort || decide ((portField t).toNat < c.nPorts))

/-- A row that fixes all 13 bits. -/
def HostRow.exact (pattern : TWord) : HostRow := ⟨pattern, 0x1FFF, false⟩

/-- The ID to ADMIN_DOWN rows of 30_encoding.md R65, in its order, each with the instruction it gives. -/
def hostRowsLow : List (HostRow × (TWord → Word → Instr)) :=
  [ (.exact 0x0000, fun _ _ => .rdId),
    (.exact 0x1000, fun _ d => .wrId d),
    (.exact 0x0004, fun _ _ => .rdCtrl),
    (.exact 0x1004, fun _ d => .wrCtrl d),
    (.exact 0x0008, fun _ _ => .rdStatus),
    (.exact 0x1008, fun _ d => .wrStatus d),
    (.exact 0x000C, fun _ _ => .rdTpid),
    (.exact 0x100C, fun _ d => .wrTpid d),
    (.exact 0x0010, fun _ _ => .rdNports),
    (.exact 0x1010, fun _ d => .wrNports d),
    (.exact 0x0014, fun _ _ => .rdCamsize),
    (.exact 0x1014, fun _ d => .wrCamsize d),
    (.exact 0x0018, fun _ _ => .rdAdminDown),
    (.exact 0x1018, fun _ d => .wrAdminDown d) ]

/-- The MODE to LAST_DISP rows of 30_encoding.md R65, in its order. -/
def hostRowsMiddle : List (HostRow × (TWord → Word → Instr)) :=
  [ (.exact 0x001C, fun _ _ => .rdMode),
    (.exact 0x101C, fun _ d => .wrMode d),
    (.exact 0x0020, fun _ _ => .rdCamIndex),
    (.exact 0x1020, fun _ d => .wrCamIndex d),
    (.exact 0x0024, fun _ _ => .rdCamDataLo),
    (.exact 0x1024, fun _ d => .wrCamDataLo d),
    (.exact 0x0028, fun _ _ => .rdCamDataHi),
    (.exact 0x1028, fun _ d => .wrCamDataHi d),
    (.exact 0x002C, fun _ _ => .rdLastDisp),
    (.exact 0x102C, fun _ d => .wrLastDisp d) ]

/-- The counter and PORT_CFG rows of 30_encoding.md R65, in its order. -/
def hostRowsHigh : List (HostRow × (TWord → Word → Instr)) :=
  [ (.exact 0x0030, fun _ _ => .rdRxCount),
    (.exact 0x0034, fun _ _ => .rdTxCount),
    (.exact 0x0038, fun _ _ => .rdDropCount),
    (.exact 0x003C, fun _ _ => .rdLearnFailCount),
    (⟨0x1030, 0x1FF3, false⟩, fun t d => .wrCounter (counterField t) d),
    (⟨0x0100, 0x1F83, true⟩, fun t _ => .rdPortCfg (portField t)),
    (⟨0x1100, 0x1F83, true⟩, fun t d => .wrPortCfg (portField t) d) ]

/-- The rows of 30_encoding.md R65 but for the last, BUS_ERR, in the table's order. -/
def hostRows : List (HostRow × (TWord → Word → Instr)) :=
  hostRowsLow ++ hostRowsMiddle ++ hostRowsHigh

/-- The instruction of a host transaction: the first row that matches, else BUS_ERR (30_encoding.md
R64). -/
def decodeHost (c : Params) (r : HostReq) : Instr :=
  match hostRows.find? (fun row => row.1.hits c r.tword) with
  | some row => row.2 r.tword r.wdata
  | none => .busErr r.tword

/-- The decoder. It is total: the frame classes partition all frames (30_encoding.md R62) and BUS_ERR
takes every other transaction (R64). -/
def decode (c : Params) (marker : BitVec 16) : Request → Instr
  | .frame p raw => decodeFrame c marker p raw
  | .host r => decodeHost c r

/-- A read transaction at a byte address. -/
def readAt (addr : BitVec 12) : HostReq := ⟨false, addr, 0⟩

/-- A write transaction at a byte address. -/
def writeAt (addr : BitVec 12) (wdata : Word) : HostReq := ⟨true, addr, wdata⟩

/-- The address of `PORT_CFG[p]`, `0x100 + 4·p` (10_state.md R30). -/
def portCfgAddr (p : PortId) : BitVec 12 := (0b00010 : BitVec 5) ++ p ++ (0b00 : BitVec 2)

/-- The address of a counter, `0x030 + 4·counter` (10_state.md R29). -/
def counterAddr (counter : BitVec 2) : BitVec 12 :=
  (0x03 : BitVec 8) ++ counter ++ (0b00 : BitVec 2)

/-- The encoder, written from 30_encoding.md R56, R57 (a frame is its bytes) and R64, R65 (`T` and
`wdata`). -/
def encode : Instr → Request
  | .frameOversize p raw => .frame p raw
  | .frameRunt p raw => .frame p raw
  | .frameTaggedRunt p raw => .frame p raw
  | .frameTaggedUcast p raw => .frame p raw
  | .frameTaggedMcast p raw => .frame p raw
  | .frameUntaggedUcast p raw => .frame p raw
  | .frameUntaggedMcast p raw => .frame p raw
  | .rdId => .host (readAt 0x000)
  | .wrId d => .host (writeAt 0x000 d)
  | .rdCtrl => .host (readAt 0x004)
  | .wrCtrl d => .host (writeAt 0x004 d)
  | .rdStatus => .host (readAt 0x008)
  | .wrStatus d => .host (writeAt 0x008 d)
  | .rdTpid => .host (readAt 0x00C)
  | .wrTpid d => .host (writeAt 0x00C d)
  | .rdNports => .host (readAt 0x010)
  | .wrNports d => .host (writeAt 0x010 d)
  | .rdCamsize => .host (readAt 0x014)
  | .wrCamsize d => .host (writeAt 0x014 d)
  | .rdAdminDown => .host (readAt 0x018)
  | .wrAdminDown d => .host (writeAt 0x018 d)
  | .rdMode => .host (readAt 0x01C)
  | .wrMode d => .host (writeAt 0x01C d)
  | .rdCamIndex => .host (readAt 0x020)
  | .wrCamIndex d => .host (writeAt 0x020 d)
  | .rdCamDataLo => .host (readAt 0x024)
  | .wrCamDataLo d => .host (writeAt 0x024 d)
  | .rdCamDataHi => .host (readAt 0x028)
  | .wrCamDataHi d => .host (writeAt 0x028 d)
  | .rdLastDisp => .host (readAt 0x02C)
  | .wrLastDisp d => .host (writeAt 0x02C d)
  | .rdRxCount => .host (readAt 0x030)
  | .rdTxCount => .host (readAt 0x034)
  | .rdDropCount => .host (readAt 0x038)
  | .rdLearnFailCount => .host (readAt 0x03C)
  | .wrCounter k d => .host (writeAt (counterAddr k) d)
  | .rdPortCfg p => .host (readAt (portCfgAddr p))
  | .wrPortCfg p d => .host (writeAt (portCfgAddr p) d)
  | .busErr t => .host ⟨t.getLsbD 12, t.extractLsb' 0 12, 0⟩

/-- Why a numbered word is no host transaction. -/
inductive WordReject where
  /-- Bits 15:13, between `T` and `wdata`, are not 0. -/
  | gapNotZero
  /-- Bits above 47 are not 0. -/
  | tooLong
deriving DecidableEq, Repr

/-- The host transaction that a numbered word holds: `T` in bits 12:0, as spec/opcode_table.json
numbers it, zeros in bits 15:13, and `wdata` in bits 47:16 (assumption log 11). -/
def HostReq.ofWord (w : Nat) : Except WordReject HostReq :=
  if 2 ^ 48 ≤ w then .error .tooLong
  else if w / 2 ^ 13 % 8 ≠ 0 then .error .gapNotZero
  else .ok ⟨decide (w / 2 ^ 12 % 2 = 1), BitVec.ofNat 12 w, BitVec.ofNat 32 (w / 2 ^ 16)⟩

/-- The instruction that the decoder reads from a table row's bits. The rows of the host bus are
bits of `T`; the frame classes have no word form. -/
def decodeTableWord (nbits w : Nat) : Option Instr :=
  match HostReq.ofWord (w % 2 ^ nbits) with
  | .ok r => some (decodeHost Config.params r)
  | .error _ => none

end Sys2Proof
end

