-- ==== Sys2Proof/Machine/State.lean ====
section
/-! DEFINITION. The machine's state as plain data, the reasons a step can stop, and the state after
reset (10_state.md; 70_reset_and_hazards.md R157). -/

namespace Sys2Proof.Machine

/-- One `PORT_CFG[p]` register (10_state.md R30). -/
structure PortCfg where
  /-- TRUNK: 1 a trunk, 0 an access port. -/
  trunk : Bool
  /-- ACCESS_VLAN. -/
  accessVlan : VlanId
deriving DecidableEq, Repr

/-- One valid entry of the learning table: entry `index` holds `mac` and `port` (10_state.md R32). -/
structure CamCell where
  index : Nat
  mac : Mac
  port : PortId
deriving DecidableEq, Repr

/-- The learning table: its valid entries by rising index; every entry not listed is invalid
(assumption log 7). -/
abbrev Cam := List CamCell

/-- The canonical form of the learning table in a block with parameters `c`: indices rise, no two
valid entries hold one MAC (10_state.md R32), indices are below CAM_ENTRIES, and ports below N_PORTS
(10_state.md R33). -/
abbrev Cam.wf (c : Params) (cam : Cam) : Prop :=
  cam.Pairwise (fun a b => a.index < b.index) ∧ cam.Pairwise (fun a b => a.mac ≠ b.mac) ∧
    ∀ e ∈ cam, e.index < c.camEntries ∧ e.port.toNat < c.nPorts

/-- LAST_DISP (10_state.md R28). -/
structure LastDisp where
  disp : BitVec 4
  port : PortId
deriving DecidableEq, Repr

/-- A host transaction's response (30_encoding.md R64). -/
structure HostResponse where
  rdata : Word
  err : Bool
deriving DecidableEq, Repr

/-- One transition in the total order of 20_memory.md R50, of one of the agents of 60_exceptions.md
R141 (assumption log 2). -/
inductive Event where
  /-- The host issues a transaction. -/
  | transact (r : HostReq)
  /-- The ingress link layer of port `p` appends a frame to `IN[p]`. -/
  | deliver (p : PortId) (f : Frame)
  /-- A frame step whose channel, as ARBITER chose, is `IN[p]`. -/
  | serve (p : PortId)
  /-- The block is reset (70_reset_and_hazards.md R157). -/
  | reset
deriving DecidableEq, Repr

/-- The state. `params` is no state of the block (10_state.md R15): it is how the OPEN parameters
reach the model as arguments (assumption log 1). `ingress`, `egress`, `response` and `schedule` are
the block's outside. -/
structure State where
  /-- The OPEN parameters (00_scope.md R9). -/
  params : Params
  /-- CTRL.ENABLE (R18). -/
  enable : Bool
  /-- STATUS.LEARN_FAIL (R19). -/
  learnFail : Bool
  /-- STATUS.MALFORMED (R19). -/
  malformed : Bool
  /-- STATUS.OVERSIZE (R19). -/
  oversize : Bool
  /-- TPID.MARKER (R20). -/
  marker : BitVec 16
  /-- ADMIN_DOWN, bit `p` is DOWN[p] (R23). -/
  adminDown : Word
  /-- MODE.EXIT_CHECK_EN (R24). -/
  exitCheckEn : Bool
  /-- CAM_INDEX.INDEX (R25). -/
  camIndex : BitVec 16
  /-- LAST_DISP (R28). -/
  lastDisp : LastDisp
  /-- RX_COUNT (R29). -/
  rxCount : Word
  /-- TX_COUNT (R29). -/
  txCount : Word
  /-- DROP_COUNT (R29). -/
  dropCount : Word
  /-- LEARN_FAIL_COUNT (R29). -/
  learnFailCount : Word
  /-- PORT_CFG[p] (R30); only the slots below N_PORTS exist (assumption log 8). -/
  ports : PerPort PortCfg
  /-- The learning table (R32). -/
  cam : Cam
  /-- The ingress channels IN[p], head first (20_memory.md R48). -/
  ingress : PerPort (List Frame)
  /-- The egress channels OUT[O], oldest frame first (20_memory.md R49). -/
  egress : PerPort (List Frame)
  /-- The response of the latest host transaction (30_encoding.md R64; assumption log 6). -/
  response : Option HostResponse
  /-- The events still to come, the next one first (assumption logs 2 and 3). -/
  schedule : List Event
deriving DecidableEq, Repr

/-- Why the model stops with a fault. No run from reset meets either. -/
inductive Fault where
  /-- Raised by a read of LAST_DISP that sees a reserved disposition code, 7 to 15: "a model seeing
  one must `fault`" (93_implementation_defined.md U10). Safe: no rule produces such a code. -/
  | reservedDisposition
  /-- Raised by the meaning of a forwarded frame class on bytes too short to hold the header, which
  no decoded frame is: such a read "has no meaning and never occurs" (20_memory.md R38). Safe. -/
  | frameOutOfBounds
deriving DecidableEq, Repr

/-- Why the model refuses. -/
inductive Refusal where
  /-- Raised by `exec` for an instruction that has no meaning yet. Safe. No arm does so now. -/
  | notModelled (mnemonic : String)
deriving DecidableEq, Repr

/-- The outcome of one step. -/
abbrev StepResult := Host.Outcome State Fault Refusal

/-- The state with another CTRL.ENABLE (10_state.md R18). -/
def State.withEnable (s : State) (v : Bool) : State := { s with enable := v }

/-- The state with another STATUS.LEARN_FAIL (10_state.md R19). -/
def State.withLearnFail (s : State) (v : Bool) : State := { s with learnFail := v }

/-- The state with another STATUS.MALFORMED (10_state.md R19). -/
def State.withMalformed (s : State) (v : Bool) : State := { s with malformed := v }

/-- The state with another STATUS.OVERSIZE (10_state.md R19). -/
def State.withOversize (s : State) (v : Bool) : State := { s with oversize := v }

/-- The state with another TPID.MARKER (10_state.md R20). -/
def State.withMarker (s : State) (v : BitVec 16) : State := { s with marker := v }

/-- The state with another ADMIN_DOWN (10_state.md R23). -/
def State.withAdminDown (s : State) (v : Word) : State := { s with adminDown := v }

/-- The state with another MODE.EXIT_CHECK_EN (10_state.md R24). -/
def State.withExitCheckEn (s : State) (v : Bool) : State := { s with exitCheckEn := v }

/-- The state with another CAM_INDEX.INDEX (10_state.md R25). -/
def State.withCamIndex (s : State) (v : BitVec 16) : State := { s with camIndex := v }

/-- The state with another LAST_DISP (10_state.md R28). -/
def State.withLastDisp (s : State) (v : LastDisp) : State := { s with lastDisp := v }

/-- The state with another RX_COUNT (10_state.md R29). -/
def State.withRxCount (s : State) (v : Word) : State := { s with rxCount := v }

/-- The state with another TX_COUNT (10_state.md R29). -/
def State.withTxCount (s : State) (v : Word) : State := { s with txCount := v }

/-- The state with another DROP_COUNT (10_state.md R29). -/
def State.withDropCount (s : State) (v : Word) : State := { s with dropCount := v }

/-- The state with another LEARN_FAIL_COUNT (10_state.md R29). -/
def State.withLearnFailCount (s : State) (v : Word) : State := { s with learnFailCount := v }

/-- The state with other PORT_CFG registers (10_state.md R30). -/
def State.withPorts (s : State) (v : PerPort PortCfg) : State := { s with ports := v }

/-- The state with another learning table (10_state.md R32). -/
def State.withCam (s : State) (v : Cam) : State := { s with cam := v }

/-- The state with other ingress channels (20_memory.md R48). -/
def State.withIngress (s : State) (v : PerPort (List Frame)) : State := { s with ingress := v }

/-- The state with other egress channels (20_memory.md R49). -/
def State.withEgress (s : State) (v : PerPort (List Frame)) : State := { s with egress := v }

/-- The state with another response the bus shows (30_encoding.md R64). -/
def State.withResponse (s : State) (v : Option HostResponse) : State := { s with response := v }

/-- The state with other events still to come (20_memory.md R50). -/
def State.withSchedule (s : State) (v : List Event) : State := { s with schedule := v }

/-- `PORT_CFG[p]` after reset: an access port in VLAN 0 (70_reset_and_hazards.md R157). -/
def PortCfg.reset : PortCfg := ⟨false, 0⟩

/-- The state of a block with parameters `c` after reset, with empty channels
(70_reset_and_hazards.md R157; assumption logs 3, 6 and 13). -/
def State.resetWith (c : Params) : State where
  params := c
  enable := false
  learnFail := false
  malformed := false
  oversize := false
  marker := c.tpidReset
  adminDown := 0
  exitCheckEn := true
  camIndex := 0
  lastDisp := ⟨0, 0⟩
  rxCount := 0
  txCount := 0
  dropCount := 0
  learnFailCount := 0
  ports := Vector.replicate 32 PortCfg.reset
  cam := []
  ingress := Vector.replicate 32 []
  egress := Vector.replicate 32 []
  response := none
  schedule := []

/-- The machine right after reset, for any legal parameters. -/
def State.reset : State := State.resetWith Config.params

end Sys2Proof.Machine
end

