-- ==== Sys2Proof/Machine/Ops.lean ====
section
/-! DEFINITION. The named operations on the machine's state: per-port arrays, the port table, the
learning table, the channels, the dispositions, and the host's responses. -/

namespace Sys2Proof.Machine

/-! Per-port arrays. -/

/-- The thing of port `p`. -/
def portGet {α : Type} (v : PerPort α) (p : PortId) : α := v[p.toNat]'p.isLt

/-- The array with another thing for port `p`. -/
def portSet {α : Type} (v : PerPort α) (p : PortId) (x : α) : PerPort α := v.set p.toNat x p.isLt

/-- The ports `0 .. N_PORTS-1` in ascending order. -/
def allPorts (c : Params) : List PortId := (List.range c.nPorts).map (BitVec.ofNat 5)

/-! The port table (41_port_table.md). -/

/-- IsTrunk (R78). -/
def isTrunk (s : State) (p : PortId) : Bool := (portGet s.ports p).trunk

/-- AccessVlan (R79). -/
def accessVlan (s : State) (p : PortId) : VlanId := (portGet s.ports p).accessVlan

/-- IsAdminDown (R80). -/
def isAdminDown (s : State) (p : PortId) : Bool := s.adminDown.getLsbD p.toNat

/-- `(1 << N_PORTS) - 1` as 32 bits (45_host_interface.md R128). -/
def portMask (c : Params) : Word := BitVec.ofNat 32 (2 ^ c.nPorts - 1)

/-! The learning table (42_learning_cam.md). -/

/-- The valid entry at index `k`, if entry `k` is valid. -/
def camEntry? (cam : Cam) (k : Nat) : Option CamCell := cam.find? (fun e => e.index == k)

/-- `CAM[k].valid`. -/
def camValid (cam : Cam) (k : Nat) : Bool := (camEntry? cam k).isSome

/-- The valid entry that holds `m`, the one of least index. -/
def camFind? (cam : Cam) (m : Mac) : Option CamCell := cam.find? (fun e => e.mac == m)

/-- Lookup (R83). -/
def camLookup (cam : Cam) (m : Mac) : Option PortId := (camFind? cam m).map (·.port)

/-- The least `k'` with `k ≤ k' < k + n` whose entry is not valid. -/
def camFreeFrom (cam : Cam) : Nat → Nat → Option Nat
  | 0, _ => none
  | n + 1, k => if camValid cam k then camFreeFrom cam n (k + 1) else some k

/-- The least index below `CAM_ENTRIES` whose entry is not valid (R82). -/
def camFree? (c : Params) (cam : Cam) : Option Nat := camFreeFrom cam c.camEntries 0

/-- The table with an entry written at its index, the rising order kept. -/
def camWrite (e : CamCell) : Cam → Cam
  | [] => [e]
  | x :: xs =>
    if e.index < x.index then e :: x :: xs
    else if e.index = x.index then e :: xs
    else x :: camWrite e xs

/-- The table with the port of the entry that holds `m` overwritten (R82). -/
def camMove (m : Mac) (p : PortId) (cam : Cam) : Cam :=
  cam.map (fun e => if e.mac = m then { e with port := p } else e)

/-- Learn (R82). -/
def learn (m : Mac) (p : PortId) (s : State) : State :=
  match camFind? s.cam m with
  | some _ => s.withCam (camMove m p s.cam)
  | none =>
    match camFree? s.params s.cam with
    | some k => s.withCam (camWrite ⟨k, m, p⟩ s.cam)
    | none => (s.withLearnFail true).withLearnFailCount (s.learnFailCount + 1)

/-- CamFlush (R84). -/
def camFlush (s : State) : State := s.withCam []

/-- The entry that the read-back shows, if the index is below `CAM_ENTRIES` and the entry valid
(R85). -/
def camShown (s : State) : Option CamCell :=
  if s.camIndex.toNat < s.params.camEntries then camEntry? s.cam s.camIndex.toNat else none

/-- CAM_DATA_LO (R85). -/
def camDataLo (s : State) : Word :=
  match camShown s with
  | some e => e.mac.extractLsb' 0 32
  | none => 0

/-- CAM_DATA_HI (R85). -/
def camDataHi (s : State) : Word :=
  match camShown s with
  | some e =>
    ((1 : Word) <<< 31) ||| (e.port.zeroExtend 32 <<< 16) |||
      ((e.mac.extractLsb' 32 16).zeroExtend 32)
  | none => 0

/-! The channels (20_memory.md R48, R49). -/

/-- The link layer appends a frame to `IN[p]`. -/
def deliverFrame (p : PortId) (f : Frame) (s : State) : State :=
  s.withIngress (portSet s.ingress p (portGet s.ingress p ++ [f]))

/-- The block takes the head of `IN[p]` and counts it (44_forwarding.md R91; 10_state.md R29). -/
def acceptFrame (p : PortId) (s : State) : State :=
  (s.withIngress (portSet s.ingress p (portGet s.ingress p).tail)).withRxCount (s.rxCount + 1)

/-- `Transmit(O, bytes)`, counted (20_memory.md R49; 44_forwarding.md R100). -/
def transmit (o : PortId) (bytes : Frame) (s : State) : State :=
  (s.withEgress (portSet s.egress o (portGet s.egress o ++ [bytes]))).withTxCount (s.txCount + 1)

/-! Dispositions (60_exceptions.md R143). -/

/-- The dispositions that a frame step can end with (60_exceptions.md R143). -/
inductive Disposition where
  | fwdUnicast | fwdFlood | filtered | dropRunt | dropTaggedRunt | dropOversize
deriving DecidableEq, Repr

/-- The 4-bit code of a disposition (60_exceptions.md R143). -/
def dispCode : Disposition → BitVec 4
  | .fwdUnicast => 1
  | .fwdFlood => 2
  | .filtered => 3
  | .dropRunt => 4
  | .dropTaggedRunt => 5
  | .dropOversize => 6

/-- Codes 7 to 15 are reserved (60_exceptions.md R143). -/
def dispReserved (code : BitVec 4) : Bool := decide (6 < code.toNat)

/-- `LAST_DISP <- { DISP: code(d), PORT: p }` (44_forwarding.md R101, R102). -/
def recordDisp (d : Disposition) (p : PortId) (s : State) : State :=
  s.withLastDisp ⟨dispCode d, p⟩

/-- The STATUS bit that a drop sets: OVERSIZE for DROP_OVERSIZE, MALFORMED for every other
(44_forwarding.md R102). -/
def setDropStatus (d : Disposition) (s : State) : State :=
  if d = .dropOversize then s.withOversize true else s.withMalformed true

/-- `raise D(p)`, how a frame step ends with a drop (44_forwarding.md R102). It is the nearest this
block has to taking an exception: nothing is saved, no mode changes and no vector is taken
(60_exceptions.md R148), so there is no return either (R149). -/
def raiseDrop (d : Disposition) (p : PortId) (s : State) : State :=
  let marked := setDropStatus d s
  recordDisp d p (marked.withDropCount (marked.dropCount + 1))

/-! Host responses (45_host_interface.md R117). -/

/-- The state with `rdata` on the bus and `err = 0`. -/
def answer (rdata : Word) (s : State) : State := s.withResponse (some ⟨rdata, false⟩)

/-- The state with `rdata = 0` and `err = 1` on the bus; nothing else changes (R117, R147). -/
def answerError (s : State) : State := s.withResponse (some ⟨0, true⟩)

/-- A read that returns `rdata` without error and changes no state (R117). -/
def respondRead (rdata : Word) (s : State) : StepResult := .next (answer rdata s)

/-- A write that completes without error, its `rdata` 0, after the effect that made `s` (R117). -/
def respondWrite (s : State) : StepResult := .next (answer 0 s)

/-- A transaction that completes with `err = 1` (R147). -/
def respondError (s : State) : StepResult := .next (answerError s)

/-- A write to a register that holds an RW-L field: locked while `CTRL.ENABLE = 1` (10_state.md
R16). -/
def lockedWrite (effect : State → State) (s : State) : StepResult :=
  if s.enable then respondError s else respondWrite (effect s)

/-! Reset (70_reset_and_hazards.md R157). -/

/-- Reset of the block: every piece of block state takes its reset value, the channels stay, and the
bus shows no response (assumption logs 5 and 6). -/
def resetBlock (s : State) : State :=
  { State.resetWith s.params with
    ingress := s.ingress
    egress := s.egress
    schedule := s.schedule }

end Sys2Proof.Machine
end

