-- ==== Sys2Proof/Machine/Flags.lean ====
section
/-! DEFINITION. The block's flags (10_state.md R36): the I/G flag of a destination and the bits of
STATUS. The other per-frame flags, `x[TAGGED]` and `x[FMODE]`, are computed in Machine/Operands.lean. -/

namespace Sys2Proof.Machine

/-- MacIsMulticast (40_frame_codec.md R70). -/
def macIsMulticast (m : Mac) : Bool := m.getLsbD 40

/-- MacIsUnicast (40_frame_codec.md R70). -/
def macIsUnicast (m : Mac) : Bool := !macIsMulticast m

/-- STATUS.CAM_FULL, the live level `for all k < CAM_ENTRIES: CAM[k].valid` (10_state.md R19). -/
def camFull (s : State) : Bool := (camFree? s.params s.cam).isNone

/-- A 1-bit field as a 32-bit word. -/
def flagWord (b : Bool) : Word := (BitVec.ofBool b).zeroExtend 32

/-- What a read of STATUS shows (45_host_interface.md R122). -/
def statusWord (s : State) : Word :=
  (flagWord (camFull s) <<< 3) ||| (flagWord s.oversize <<< 2) ||| (flagWord s.malformed <<< 1) |||
    flagWord s.learnFail

/-- A sticky bit after a write of `w` to it: writing 1 clears it (10_state.md R16, W1C). -/
def w1c (bit w : Bool) : Bool := bit && !w

/-- A write of STATUS (45_host_interface.md R123). -/
def writeStatus (wdata : Word) (s : State) : State :=
  ((s.withLearnFail (w1c s.learnFail (wdata.getLsbD 0))).withMalformed
    (w1c s.malformed (wdata.getLsbD 1))).withOversize (w1c s.oversize (wdata.getLsbD 2))

end Sys2Proof.Machine
end

