-- ==== Sys2Proof/Machine/Operands.lean ====
section
/-! DEFINITION. The per-frame working registers (10_state.md R34) and the operations that compute
them: the codec (40_frame_codec.md), the VLAN resolver (43_vlan_resolver.md), and the mode, candidate
and admission selection of 44_forwarding.md. All of them are local values: none is in State. -/

namespace Sys2Proof.Machine

/-! The codec (40_frame_codec.md). -/

/-- The working registers that Decode writes (10_state.md R34). -/
structure Header where
  /-- `x[DST]`. -/
  dst : Mac
  /-- `x[SRC]`. -/
  src : Mac
  /-- `x[TAGGED]`. -/
  tagged : Bool
  /-- `x[TCI]`, 0 when untagged. -/
  tci : BitVec 16
  /-- `x[ETYPE]`. -/
  etype : BitVec 16
deriving DecidableEq, Repr

/-- Decode (R69); none where the frame does not meet R69's precondition. -/
def parseHeader (marker : BitVec 16) (raw : Frame) : Option Header :=
  if raw.length < 14 then none
  else if be16 raw 12 = marker then
    if raw.length < 18 then none
    else some ⟨macAt raw 0, macAt raw 6, true, be16 raw 14, be16 raw 16⟩
  else some ⟨macAt raw 0, macAt raw 6, false, 0, be16 raw 12⟩

/-- `EXIT_ID` of a TCI (30_encoding.md R58). -/
def tciExit (tci : BitVec 16) : ExitId := tci.extractLsb' 12 4

/-- `VLAN_ID` of a TCI (30_encoding.md R58). -/
def tciVlan (tci : BitVec 16) : VlanId := tci.extractLsb' 0 12

/-- A 16-bit field as its two bytes, big-endian (20_memory.md R42). -/
def be16Bytes (v : BitVec 16) : List Byte := [v.extractLsb' 8 8, v.extractLsb' 0 8]

/-- EncodeTag (R71): the marker, then `exit ‖ vid`, big-endian. -/
def encodeTag (marker : BitVec 16) (exit : ExitId) (vid : VlanId) : List Byte :=
  be16Bytes marker ++ be16Bytes (exit ++ vid)

/-- Rewrite case (a) (R73): insert a tag; INVALID is encoded as all ones. -/
def insertTag (marker : BitVec 16) (vlan : Option VlanId) (exit : Option ExitId) (raw : Frame) :
    Frame :=
  raw.take 12 ++ encodeTag marker (exit.getD 0xF) (vlan.getD 0xFFF) ++ raw.drop 12

/-- Rewrite case (c) (R75): remove bytes 12 to 15. -/
def stripTag (raw : Frame) : Frame := raw.take 12 ++ raw.drop 16

/-- Rewrite (R72) towards a port whose role is `trunk`, of a frame with `x[TAGGED] = tagged`. -/
def rewrite (marker : BitVec 16) (trunk tagged : Bool) (vlan : Option VlanId)
    (exit : Option ExitId) (raw : Frame) : Frame :=
  match trunk, tagged with
  | true, false => insertTag marker vlan exit raw
  | true, true => raw
  | false, true => stripTag raw
  | false, false => raw

/-! The VLAN resolver (43_vlan_resolver.md). -/

/-- Byte `i` of a MAC, in wire order (R89). -/
def macByte (m : Mac) (i : Nat) : Byte := m.extractLsb' (40 - 8 * i) 8

/-- The 8-bit accumulator of ComputeExitIdFromMac with both nibbles of a byte added (R89). -/
def addNibbles (acc b : Byte) : Byte :=
  acc + (b.extractLsb' 4 4).zeroExtend 8 + (b.extractLsb' 0 4).zeroExtend 8

/-- ComputeExitIdFromMac (R89). -/
def exitIdFromMac (m : Mac) : ExitId :=
  ([0, 1, 2, 3, 4, 5].foldl (fun acc i => addNibbles acc (macByte m i)) (0 : Byte)).extractLsb' 0 4

/-- EffectiveVlan (R87); none is INVALID. -/
def effectiveVlan (s : State) (p : PortId) (h : Header) : Option VlanId :=
  if isTrunk s p then (if h.tagged then some (tciVlan h.tci) else none)
  else some (accessVlan s p)

/-- EffectiveExitId (R88); none is INVALID. -/
def effectiveExit (s : State) (p : PortId) (h : Header) : Option ExitId :=
  if isTrunk s p then (if h.tagged then some (tciExit h.tci) else none)
  else some (exitIdFromMac h.src)

/-! Mode, candidates and admission (44_forwarding.md). -/

/-- `x[FMODE]`, with `q*` (R94). -/
inductive FMode where
  | unicastKnown (q : PortId)
  | flood
deriving DecidableEq, Repr

/-- Selecting the forwarding mode (R94). -/
def selectMode (s : State) (p : PortId) (dst : Mac) : FMode :=
  if macIsUnicast dst then
    match camLookup s.cam dst with
    | some q => if q = p then .flood else .unicastKnown q
    | none => .flood
  else .flood

/-- The candidate set before the admin filter (R95), in ascending order. -/
def candidates (s : State) (p : PortId) : FMode → List PortId
  | .unicastKnown q => [q]
  | .flood => (allPorts s.params).filter (fun o => o ≠ p)

/-- `x[CAND]`: the candidates that are not administratively down (R96). -/
def upCandidates (s : State) (p : PortId) (mode : FMode) : List PortId :=
  (candidates s p mode).filter (fun o => !isAdminDown s o)

/-- BasicTest (R97). -/
def basicTest (s : State) (vlan : Option VlanId) (o : PortId) : Bool :=
  isTrunk s o || (!isTrunk s o && decide (vlan = some (accessVlan s o)))

/-- ExtendedTest (R98). -/
def extendedTest (s : State) (vlan : Option VlanId) (exit : Option ExitId) (dst : Mac)
    (o : PortId) : Bool :=
  isTrunk s o ||
    (!isTrunk s o && decide (vlan = some (accessVlan s o)) &&
      (!s.exitCheckEn || decide (exit = some (exitIdFromMac dst))))

/-- The membership test of a mode (R99). -/
def admits (s : State) (mode : FMode) (vlan : Option VlanId) (exit : Option ExitId) (dst : Mac)
    (o : PortId) : Bool :=
  match mode with
  | .unicastKnown _ => extendedTest s vlan exit dst o
  | .flood => basicTest s vlan o

/-- The working registers after step 4 of a frame step (10_state.md R34). -/
structure Work where
  /-- `x[VLAN]`, none is INVALID. -/
  vlan : Option VlanId
  /-- `x[EXIT]`, none is INVALID. -/
  exit : Option ExitId
  /-- `x[FMODE]`. -/
  mode : FMode
  /-- `x[CAND]`, ascending. -/
  cand : List PortId
  /-- `x[ADMIT]`, ascending. -/
  admitted : List PortId
deriving DecidableEq, Repr

/-- Steps 2 to 4 of a frame step (R91), in the state after Learn. -/
def frameWork (s : State) (p : PortId) (h : Header) : Work :=
  let vlan := effectiveVlan s p h
  let exit := effectiveExit s p h
  let mode := selectMode s p h.dst
  let cand := upCandidates s p mode
  { vlan, exit, mode, cand, admitted := cand.filter (admits s mode vlan exit h.dst) }

/-- The disposition of a frame that is not dropped (R101). -/
def workDisp (w : Work) : Disposition :=
  if w.admitted = [] then .filtered
  else match w.mode with
    | .unicastKnown _ => .fwdUnicast
    | .flood => .fwdFlood

/-- What egress port `o` is sent (R100): Rewrite from the unmodified `x[RAW]`. -/
def egressFrame (s : State) (h : Header) (w : Work) (raw : Frame) (o : PortId) : Frame :=
  rewrite s.marker (isTrunk s o) h.tagged w.vlan w.exit raw

end Sys2Proof.Machine
end

