-- ==== Sys2Proof/Machine/Forwarding.lean ====
section
/-! DEFINITION. The frame step of 44_forwarding.md R91, shared by the frame classes. -/

namespace Sys2Proof.Machine

/-- The egress multiplexer (R100): transmit to every admitted port, in ascending order. -/
def multiplex (frameFor : PortId → Frame) (admitted : List PortId) (s : State) : State :=
  admitted.foldl (fun t o => transmit o (frameFor o) t) s

/-- Steps 2 to 5 of a frame step and its disposition (R91, R101), in the state after Learn. -/
def forward (p : PortId) (raw : Frame) (h : Header) (s : State) : State :=
  let w := frameWork s p h
  recordDisp (workDisp w) p (multiplex (egressFrame s h w raw) w.admitted s)

/-- FrameStep(p) for a frame that the length checks let through (R91): accept, Decode, Learn, steps 2
to 5, record. -/
def forwardFrame (p : PortId) (raw : Frame) (s : State) : StepResult :=
  match parseHeader s.marker raw with
  | none => .fault .frameOutOfBounds
  | some h => .next (forward p raw h (learn h.src p (acceptFrame p s)))

/-- FrameStep(p) for a frame that a length check drops (R91, R92): accept, then raise the drop. No
byte is read. -/
def dropFrame (d : Disposition) (p : PortId) (s : State) : StepResult :=
  .next (raiseDrop d p (acceptFrame p s))

end Sys2Proof.Machine
end

