-- ==== Sys2Proof/Machine/FrameClasses.lean ====
section
/-! DEFINITION. The meanings of the 7 frame classes (44_forwarding.md R103 to R109). -/

namespace Sys2Proof.Machine

/-- FRAME_OVERSIZE (R103). -/
def execFrameOversize (p : PortId) (s : State) : StepResult := dropFrame .dropOversize p s

/-- FRAME_RUNT (R104). -/
def execFrameRunt (p : PortId) (s : State) : StepResult := dropFrame .dropRunt p s

/-- FRAME_TAGGED_RUNT (R105). -/
def execFrameTaggedRunt (p : PortId) (s : State) : StepResult := dropFrame .dropTaggedRunt p s

/-- FRAME_TAGGED_UCAST (R106). -/
def execFrameTaggedUcast (p : PortId) (raw : Frame) (s : State) : StepResult :=
  forwardFrame p raw s

/-- FRAME_TAGGED_MCAST (R107). -/
def execFrameTaggedMcast (p : PortId) (raw : Frame) (s : State) : StepResult :=
  forwardFrame p raw s

/-- FRAME_UNTAGGED_UCAST (R108). -/
def execFrameUntaggedUcast (p : PortId) (raw : Frame) (s : State) : StepResult :=
  forwardFrame p raw s

/-- FRAME_UNTAGGED_MCAST (R109). -/
def execFrameUntaggedMcast (p : PortId) (raw : Frame) (s : State) : StepResult :=
  forwardFrame p raw s

end Sys2Proof.Machine
end

