-- ==== Sys2Proof/Machine/HostReads.lean ====
section
/-! DEFINITION. The meanings of the host reads (45_host_interface.md R118 to R138). No read has a side
effect (20_memory.md R47): a read only puts its response on the bus. -/

namespace Sys2Proof.Machine

/-- `ID.IDENT`, "L2SW" (10_state.md R17). -/
def identValue : Word := 0x4C325357

/-- What a read of LAST_DISP shows (45_host_interface.md R136). -/
def lastDispWord (d : LastDisp) : Word := (d.port.zeroExtend 32 <<< 8) ||| d.disp.zeroExtend 32

/-- What a read of PORT_CFG[p] shows (45_host_interface.md R138). -/
def portCfgWord (cfg : PortCfg) : Word :=
  (cfg.accessVlan.zeroExtend 32 <<< 16) ||| flagWord cfg.trunk

/-- RD_ID (R118). -/
def execRdId (s : State) : StepResult := respondRead identValue s

/-- RD_CTRL (R120). -/
def execRdCtrl (s : State) : StepResult := respondRead (flagWord s.enable) s

/-- RD_STATUS (R122). -/
def execRdStatus (s : State) : StepResult := respondRead (statusWord s) s

/-- RD_TPID (R124). -/
def execRdTpid (s : State) : StepResult := respondRead (s.marker.zeroExtend 32) s

/-- RD_NPORTS (R126). -/
def execRdNports (s : State) : StepResult := respondRead (BitVec.ofNat 32 s.params.nPorts) s

/-- RD_CAMSIZE (R127). -/
def execRdCamsize (s : State) : StepResult := respondRead (BitVec.ofNat 32 s.params.camEntries) s

/-- RD_ADMIN_DOWN (R128). -/
def execRdAdminDown (s : State) : StepResult := respondRead (s.adminDown &&& portMask s.params) s

/-- RD_MODE (R130). -/
def execRdMode (s : State) : StepResult := respondRead (flagWord s.exitCheckEn) s

/-- RD_CAM_INDEX (R132). -/
def execRdCamIndex (s : State) : StepResult := respondRead (s.camIndex.zeroExtend 32) s

/-- RD_CAM_DATA_LO (R134). -/
def execRdCamDataLo (s : State) : StepResult := respondRead (camDataLo s) s

/-- RD_CAM_DATA_HI (R135). -/
def execRdCamDataHi (s : State) : StepResult := respondRead (camDataHi s) s

/-- RD_LAST_DISP (R136). A reserved code faults (93_implementation_defined.md U10; assumption log 9). -/
def execRdLastDisp (s : State) : StepResult :=
  if dispReserved s.lastDisp.disp then .fault .reservedDisposition
  else respondRead (lastDispWord s.lastDisp) s

/-- RD_RX_COUNT (R137). -/
def execRdRxCount (s : State) : StepResult := respondRead s.rxCount s

/-- RD_TX_COUNT (R137). -/
def execRdTxCount (s : State) : StepResult := respondRead s.txCount s

/-- RD_DROP_COUNT (R137). -/
def execRdDropCount (s : State) : StepResult := respondRead s.dropCount s

/-- RD_LEARN_FAIL_COUNT (R137). -/
def execRdLearnFailCount (s : State) : StepResult := respondRead s.learnFailCount s

/-- RD_PORT_CFG (R138). -/
def execRdPortCfg (p : PortId) (s : State) : StepResult :=
  respondRead (portCfgWord (portGet s.ports p)) s

end Sys2Proof.Machine
end

