-- ==== Sys2Proof/Machine/HostWrites.lean ====
section
/-! DEFINITION. The meanings of the host writes and of BUS_ERR (45_host_interface.md R119 to R140). -/

namespace Sys2Proof.Machine

/-- The PORT_CFG fields of a written word (10_state.md R30). -/
def portCfgOf (wdata : Word) : PortCfg := ⟨wdata.getLsbD 0, wdata.extractLsb' 16 12⟩

/-- The effect of a write of CTRL (R121): bit 1 flushes, bit 0 is ENABLE. -/
def writeCtrl (wdata : Word) (s : State) : State :=
  (if wdata.getLsbD 1 then camFlush s else s).withEnable (wdata.getLsbD 0)

/-- WR_CTRL (R121). -/
def execWrCtrl (wdata : Word) (s : State) : StepResult := respondWrite (writeCtrl wdata s)

/-- WR_STATUS (R123). -/
def execWrStatus (wdata : Word) (s : State) : StepResult := respondWrite (writeStatus wdata s)

/-- WR_TPID (R125). -/
def execWrTpid (wdata : Word) (s : State) : StepResult :=
  lockedWrite (fun t => t.withMarker (wdata.extractLsb' 0 16)) s

/-- WR_ADMIN_DOWN (R129). -/
def execWrAdminDown (wdata : Word) (s : State) : StepResult :=
  respondWrite (s.withAdminDown (wdata &&& portMask s.params))

/-- WR_MODE (R131). -/
def execWrMode (wdata : Word) (s : State) : StepResult :=
  lockedWrite (fun t => t.withExitCheckEn (wdata.getLsbD 0)) s

/-- WR_CAM_INDEX (R133). -/
def execWrCamIndex (wdata : Word) (s : State) : StepResult :=
  respondWrite (s.withCamIndex (wdata.extractLsb' 0 16))

/-- WR_PORT_CFG (R139). -/
def execWrPortCfg (p : PortId) (wdata : Word) (s : State) : StepResult :=
  lockedWrite (fun t => t.withPorts (portSet t.ports p (portCfgOf wdata))) s

/-- WR_ID: a write to a read-only register is ignored (R119). -/
def execWrId (s : State) : StepResult := respondWrite s

/-- WR_NPORTS: a write to a read-only register is ignored (R119). -/
def execWrNports (s : State) : StepResult := respondWrite s

/-- WR_CAMSIZE: a write to a read-only register is ignored (R119). -/
def execWrCamsize (s : State) : StepResult := respondWrite s

/-- WR_CAM_DATA_LO: a write to a read-only register is ignored (R119). -/
def execWrCamDataLo (s : State) : StepResult := respondWrite s

/-- WR_CAM_DATA_HI: a write to a read-only register is ignored (R119). -/
def execWrCamDataHi (s : State) : StepResult := respondWrite s

/-- WR_LAST_DISP: a write to a read-only register is ignored (R119). -/
def execWrLastDisp (s : State) : StepResult := respondWrite s

/-- WR_COUNTER: a write to a read-only register is ignored (R119). -/
def execWrCounter (s : State) : StepResult := respondWrite s

/-- BUS_ERR (R140). -/
def execBusErr (s : State) : StepResult := respondError s

end Sys2Proof.Machine
end

