-- ==== Sys2Proof/Machine/Dispatch.lean ====
section
/-! DEFINITION. The one match that sends each instruction to its meaning. -/

namespace Sys2Proof.Machine

def exec (i : Instr) (s : State) : Host.Outcome State Fault Refusal :=
  match i with
  | .frameOversize p _ => Sys2Proof.Machine.execFrameOversize p s
  | .frameRunt p _ => Sys2Proof.Machine.execFrameRunt p s
  | .frameTaggedRunt p _ => Sys2Proof.Machine.execFrameTaggedRunt p s
  | .frameTaggedUcast p raw => Sys2Proof.Machine.execFrameTaggedUcast p raw s
  | .frameTaggedMcast p raw => Sys2Proof.Machine.execFrameTaggedMcast p raw s
  | .frameUntaggedUcast p raw => Sys2Proof.Machine.execFrameUntaggedUcast p raw s
  | .frameUntaggedMcast p raw => Sys2Proof.Machine.execFrameUntaggedMcast p raw s
  | .rdId => Sys2Proof.Machine.execRdId s
  | .wrId _ => Sys2Proof.Machine.execWrId s
  | .rdCtrl => Sys2Proof.Machine.execRdCtrl s
  | .wrCtrl wdata => Sys2Proof.Machine.execWrCtrl wdata s
  | .rdStatus => Sys2Proof.Machine.execRdStatus s
  | .wrStatus wdata => Sys2Proof.Machine.execWrStatus wdata s
  | .rdTpid => Sys2Proof.Machine.execRdTpid s
  | .wrTpid wdata => Sys2Proof.Machine.execWrTpid wdata s
  | .rdNports => Sys2Proof.Machine.execRdNports s
  | .wrNports _ => Sys2Proof.Machine.execWrNports s
  | .rdCamsize => Sys2Proof.Machine.execRdCamsize s
  | .wrCamsize _ => Sys2Proof.Machine.execWrCamsize s
  | .rdAdminDown => Sys2Proof.Machine.execRdAdminDown s
  | .wrAdminDown wdata => Sys2Proof.Machine.execWrAdminDown wdata s
  | .rdMode => Sys2Proof.Machine.execRdMode s
  | .wrMode wdata => Sys2Proof.Machine.execWrMode wdata s
  | .rdCamIndex => Sys2Proof.Machine.execRdCamIndex s
  | .wrCamIndex wdata => Sys2Proof.Machine.execWrCamIndex wdata s
  | .rdCamDataLo => Sys2Proof.Machine.execRdCamDataLo s
  | .wrCamDataLo _ => Sys2Proof.Machine.execWrCamDataLo s
  | .rdCamDataHi => Sys2Proof.Machine.execRdCamDataHi s
  | .wrCamDataHi _ => Sys2Proof.Machine.execWrCamDataHi s
  | .rdLastDisp => Sys2Proof.Machine.execRdLastDisp s
  | .wrLastDisp _ => Sys2Proof.Machine.execWrLastDisp s
  | .rdRxCount => Sys2Proof.Machine.execRdRxCount s
  | .rdTxCount => Sys2Proof.Machine.execRdTxCount s
  | .rdDropCount => Sys2Proof.Machine.execRdDropCount s
  | .rdLearnFailCount => Sys2Proof.Machine.execRdLearnFailCount s
  | .wrCounter _ _ => Sys2Proof.Machine.execWrCounter s
  | .rdPortCfg p => Sys2Proof.Machine.execRdPortCfg p s
  | .wrPortCfg p wdata => Sys2Proof.Machine.execWrPortCfg p wdata s
  | .busErr _ => Sys2Proof.Machine.execBusErr s

end Sys2Proof.Machine
end

