-- ==== Sys2Proof/Machine/Fetch.lean ====
section
/-! DEFINITION. What the next event of the total order makes the machine do (20_memory.md R48, R50,
R51; 60_exceptions.md R141): decode an instruction and run it, or take a step of the environment. -/

namespace Sys2Proof.Machine

/-- What an event comes to. -/
inductive Fetched where
  /-- The block runs an instruction. -/
  | run (i : Instr)
  /-- A step of the environment, or no transition: the state is as given. -/
  | environment (s : State)
deriving DecidableEq, Repr

/-- A frame step on `IN[p]` is enabled, and this is the frame it takes: `CTRL.ENABLE = 1`, the port
exists and its channel is not empty (20_memory.md R48). -/
def enabledHead (s : State) (p : PortId) : Option Frame :=
  if s.enable && s.params.hasPort p then (portGet s.ingress p).head? else none

/-- What event `e` comes to in state `s`, which no longer lists it. A frame step that is not enabled
is no transition, and no channel takes a frame for a port that does not exist (assumption log 4). -/
def fetch (e : Event) (s : State) : Fetched :=
  match e with
  | .transact r => .run (decodeHost s.params r)
  | .deliver p f => .environment (if s.params.hasPort p then deliverFrame p f s else s)
  | .serve p =>
    match enabledHead s p with
    | some raw => .run (decodeFrame s.params s.marker p raw)
    | none => .environment s
  | .reset => .environment (resetBlock s)

/-- The events with a numbered word's host transaction, if it holds one, as the next. -/
def scheduleWord (nbits w : Nat) (events : List Event) : List Event :=
  match HostReq.ofWord (w % 2 ^ nbits) with
  | .ok r => .transact r :: events
  | .error _ => events

end Sys2Proof.Machine
end

