-- ==== Sys2Proof/Machine/Step.lean ====
section
/-! DEFINITION. One step of the machine: the next transition of the total order (20_memory.md R50). -/

namespace Sys2Proof.Machine

/-- One step. With no event to come the block waits and all state survives (60_exceptions.md R156;
assumption log 3). -/
def step (s : State) : Host.Outcome State Fault Refusal :=
  match s.schedule with
  | [] => .next s
  | e :: rest =>
    match fetch e (s.withSchedule rest) with
    | .run i => exec i (s.withSchedule rest)
    | .environment t => .next t

/-- The state whose next event is the host transaction of a table row's bits (assumption logs 3 and
11). -/
def State.withFetchWord (s : State) (nbits w : Nat) : State :=
  s.withSchedule (scheduleWord nbits w s.schedule)

end Sys2Proof.Machine
end

