-- ==== Sys2Proof/Safety.lean ====
section
/-! DEFINITION. What the claims about the machine are said in: the invariant of a run, the frame that an
instruction processes, and the host transactions that are turned away. -/

namespace Sys2Proof.Machine

/-- What every reachable state keeps: the learning table's form (10_state.md R32, R33), ADMIN_DOWN's
reserved bits at 0 (R23), no reserved disposition (60_exceptions.md R143), an ingress port that exists
in LAST_DISP (R28), and nothing in the slots of ports that do not exist (assumption log 8). -/
structure MachineInv (s : State) : Prop where
  camWf : Cam.wf s.params s.cam
  adminMasked : s.adminDown &&& portMask s.params = s.adminDown
  dispLegal : dispReserved s.lastDisp.disp = false
  dispPort : s.params.hasPort s.lastDisp.port = true
  noPort : ∀ p, s.params.hasPort p = false →
    portGet s.ports p = PortCfg.reset ∧ portGet s.ingress p = [] ∧ portGet s.egress p = []

/-- The ingress port and the bytes of a frame that the length checks let through. -/
def forwardedFrame : Instr → Option (PortId × Frame)
  | .frameTaggedUcast p raw => some (p, raw)
  | .frameTaggedMcast p raw => some (p, raw)
  | .frameUntaggedUcast p raw => some (p, raw)
  | .frameUntaggedMcast p raw => some (p, raw)
  | _ => none

/-- The ingress port and the bytes of any frame. -/
def anyFrame : Instr → Option (PortId × Frame)
  | .frameOversize p raw => some (p, raw)
  | .frameRunt p raw => some (p, raw)
  | .frameTaggedRunt p raw => some (p, raw)
  | i => forwardedFrame i

/-- The state after a frame is taken and its source learned, where steps 2 to 5 of the frame step run
(44_forwarding.md R91). -/
def afterLearn (s : State) (p : PortId) (h : Header) : State := learn h.src p (acceptFrame p s)

/-- The working registers of the frame step that takes a frame with header `h` from `IN[p]` in state
`s`. -/
def workOf (s : State) (p : PortId) (h : Header) : Work := frameWork (afterLearn s p h) p h

/-- A MAC address as its six bytes in wire order (00_scope.md R12). -/
def macBytes (m : Mac) : List Byte := [0, 1, 2, 3, 4, 5].map (macByte m)

/-- The sum of the 12 nibbles of a MAC address, as a number. -/
def nibbleSum (m : Mac) : Nat :=
  ((List.range 12).map (fun k => (m.extractLsb' (4 * k) 4).toNat)).sum

/-- The write addresses that `CTRL.ENABLE = 1` locks: TPID, MODE and PORT_CFG (60_exceptions.md
R147). -/
def lockedAddr (addr : BitVec 12) : Bool :=
  addr == 0x00C || addr == 0x01C || decide (0x100 ≤ addr.toNat)

/-- A transaction that completes with `err = 1` (60_exceptions.md R147): no register is mapped there,
or it is a locked write. -/
def turnedAway (s : State) (r : HostReq) : Bool :=
  !s.params.mapsAddr r.addr || (r.rw && s.enable && lockedAddr r.addr)

/-- The event flushes the learning table: a write of CTRL with bit 1 set (45_host_interface.md R121). -/
def flushes : Event → Bool
  | .transact r => r.rw && r.addr == 0x004 && r.wdata.getLsbD 1
  | _ => false

end Sys2Proof.Machine
end

