-- ==== Sys2Proof/Certificates/Slice0/Obligations.lean ====
section
/-! DEFINITION. The statements for the provers. Each docstring names the rules of spec/ that it
formalises. -/

open Sys2Proof Sys2Proof.Machine

/-! Encoding (30_encoding.md). -/

/-- Decoding the encoding of a well-formed instruction gives it back, with every operand (R56,
R57, R62, R64, R65). -/
def Obligations.DecodeEncodeRoundTrip : Prop :=
  ∀ (c : Params) (marker : BitVec 16) (i : Instr),
    i.wellFormed c marker = true → decode c marker (encode i) = i

/-- The decoder answers well-formed instructions only: a frame of the class it names, a port that
exists, BUS_ERR at unmapped addresses only (R41, R62, R64). -/
def Obligations.DecodedInstrIsWellFormed : Prop :=
  ∀ (c : Params) (marker : BitVec 16) (q : Request),
    (∀ p raw, q = Request.frame p raw → c.hasPort p = true) →
    (decode c marker q).wellFormed c marker = true

/-- Encoding what was decoded gives back all of a frame, and of a transaction `rw`, `addr` and the
`wdata` of a mapped write (R38, R64). The `wdata` of a read and of a BUS_ERR transaction is not
given back: that it is dropped, and encoded as 0, is the model's choice (assumption log 15). -/
def Obligations.EncodeRecoversRequest : Prop :=
  ∀ (c : Params) (marker : BitVec 16),
    (∀ p raw, encode (decode c marker (.frame p raw)) = .frame p raw) ∧
    ∀ r : HostReq, encode (decode c marker (.host r)) =
      .host ⟨r.rw, r.addr, if r.rw && c.mapsAddr r.addr then r.wdata else 0⟩

/-- A few inputs written out from the spec decode to the instructions they stand for: the
transactions V-H-1, V-H-3, V-H-7 and P1 lines 1 and 5, and the frames V-LEN-1, V-LEN-4, V-LEN-5,
V-LEN-6, V-RW-C2 and P1 frame 3, all of 95_test_vectors.md, and V-RW-C2 with the unicast
destination B in place of FF:FF:FF:FF:FF:FF (30_encoding.md R57, R62). -/
def Obligations.SpecWordsDecode : Prop :=
  ∀ c : Params, ∀ p : PortId,
    decodeHost c ⟨false, 0x000, 0⟩ = .rdId ∧
    decodeHost c ⟨true, 0x00C, 0x8200⟩ = .wrTpid 0x8200 ∧
    decodeHost c ⟨true, 0x100, 0x00140000⟩ = .wrPortCfg 0 0x00140000 ∧
    decodeHost c ⟨false, 0x002, 0⟩ = .busErr 0x0002 ∧
    decodeHost c ⟨true, 0x200, 1⟩ = .busErr 0x1200 ∧
    decodeFrame c 0x8200 p [1, 2, 3] = .frameRunt p [1, 2, 3] ∧
    decodeFrame c 0x8200 p
        [0xFF, 0xFF, 0xFF, 0xFF, 0xFF, 0xFF, 2, 0, 0, 0, 0, 1, 0x82, 0x00, 0x30] =
      .frameTaggedRunt p
        [0xFF, 0xFF, 0xFF, 0xFF, 0xFF, 0xFF, 2, 0, 0, 0, 0, 1, 0x82, 0x00, 0x30] ∧
    decodeFrame c 0x8200 p
        [0xFF, 0xFF, 0xFF, 0xFF, 0xFF, 0xFF, 2, 0, 0, 0, 0, 0x11, 0x08, 0x00] =
      .frameUntaggedMcast p
        [0xFF, 0xFF, 0xFF, 0xFF, 0xFF, 0xFF, 2, 0, 0, 0, 0, 0x11, 0x08, 0x00] ∧
    decodeFrame c 0x8200 p
        [0xFF, 0xFF, 0xFF, 0xFF, 0xFF, 0xFF, 2, 0, 0, 0, 0, 0x11, 0x82, 0x00] =
      .frameTaggedRunt p
        [0xFF, 0xFF, 0xFF, 0xFF, 0xFF, 0xFF, 2, 0, 0, 0, 0, 0x11, 0x82, 0x00] ∧
    decodeFrame c 0x8200 p
        [0xFF, 0xFF, 0xFF, 0xFF, 0xFF, 0xFF, 2, 0, 0, 0, 0, 1, 0x82, 0x00, 0x30, 0x07, 0x08,
          0x00] =
      .frameTaggedMcast p
        [0xFF, 0xFF, 0xFF, 0xFF, 0xFF, 0xFF, 2, 0, 0, 0, 0, 1, 0x82, 0x00, 0x30, 0x07, 0x08,
          0x00] ∧
    decodeFrame c 0x8200 p
        [2, 0, 0, 0, 0, 2, 2, 0, 0, 0, 0, 0x11, 0x08, 0x00, 0xAA, 0xBB] =
      .frameUntaggedUcast p
        [2, 0, 0, 0, 0, 2, 2, 0, 0, 0, 0, 0x11, 0x08, 0x00, 0xAA, 0xBB] ∧
    decodeFrame c 0x8200 p
        [2, 0, 0, 0, 0, 2, 2, 0, 0, 0, 0, 1, 0x82, 0x00, 0x30, 0x07, 0x08, 0x00] =
      .frameTaggedUcast p
        [2, 0, 0, 0, 0, 2, 2, 0, 0, 0, 0, 1, 0x82, 0x00, 0x30, 0x07, 0x08, 0x00]

/-- Each class is decoded exactly under its condition, and every frame is in one of the seven
(R62). -/
def Obligations.FrameClassesPartition : Prop :=
  ∀ (c : Params) (marker : BitVec 16) (p : PortId) (raw : Frame),
    (decodeFrame c marker p raw = .frameOversize p raw ↔ c.maxFrameBytes < raw.length) ∧
    (decodeFrame c marker p raw = .frameRunt p raw ↔ raw.length < 14) ∧
    (decodeFrame c marker p raw = .frameTaggedRunt p raw ↔
      14 ≤ raw.length ∧ raw.length < 18 ∧ be16 raw 12 = marker) ∧
    (decodeFrame c marker p raw = .frameTaggedUcast p raw ↔
      18 ≤ raw.length ∧ raw.length ≤ c.maxFrameBytes ∧ be16 raw 12 = marker ∧
        groupBit raw = false) ∧
    (decodeFrame c marker p raw = .frameTaggedMcast p raw ↔
      18 ≤ raw.length ∧ raw.length ≤ c.maxFrameBytes ∧ be16 raw 12 = marker ∧
        groupBit raw = true) ∧
    (decodeFrame c marker p raw = .frameUntaggedUcast p raw ↔
      14 ≤ raw.length ∧ raw.length ≤ c.maxFrameBytes ∧ be16 raw 12 ≠ marker ∧
        groupBit raw = false) ∧
    (decodeFrame c marker p raw = .frameUntaggedMcast p raw ↔
      14 ≤ raw.length ∧ raw.length ≤ c.maxFrameBytes ∧ be16 raw 12 ≠ marker ∧
        groupBit raw = true) ∧
    decodeFrame c marker p raw ∈
      [Instr.frameOversize p raw, .frameRunt p raw, .frameTaggedRunt p raw,
        .frameTaggedUcast p raw, .frameTaggedMcast p raw, .frameUntaggedUcast p raw,
        .frameUntaggedMcast p raw]

/-- Parsing a frame built from its fields gives the fields back, tagged or not; in the tag no bit
leaks between the two fields (R42, R56, R57, R58, R69, R71). -/
def Obligations.HeaderRoundTrip : Prop :=
  ∀ (marker etype : BitVec 16) (dst src : Mac) (exit : ExitId) (vid : VlanId) (payload : Frame),
    parseHeader marker (macBytes dst ++ macBytes src ++ encodeTag marker exit vid ++
        be16Bytes etype ++ payload) = some ⟨dst, src, true, exit ++ vid, etype⟩ ∧
    tciExit (exit ++ vid) = exit ∧ tciVlan (exit ++ vid) = vid ∧
    (etype ≠ marker →
      parseHeader marker (macBytes dst ++ macBytes src ++ be16Bytes etype ++ payload) =
        some ⟨dst, src, false, 0, etype⟩)

/-! Reset and runs (70_reset_and_hazards.md). -/

/-- Reset gives every piece of block state the value of R157's table and leaves the channels
(R157). The last clause, that a reset is one event of the schedule and one step, is the model's
choice (assumption log 5); so is the cleared response that `resetBlock` carries there (assumption
log 6). -/
def Obligations.ResetGivesTheTable : Prop :=
  ∀ s : State, let t := resetBlock s
    exec .rdId t = .next (answer 0x4C325357 t) ∧
    exec .rdNports t = .next (answer (BitVec.ofNat 32 s.params.nPorts) t) ∧
    exec .rdCamsize t = .next (answer (BitVec.ofNat 32 s.params.camEntries) t) ∧
    t.enable = false ∧ t.learnFail = false ∧ t.malformed = false ∧ t.oversize = false ∧
    camFull t = false ∧ t.marker = s.params.tpidReset ∧ t.adminDown = 0 ∧ t.exitCheckEn = true ∧
    t.camIndex = 0 ∧ camDataLo t = 0 ∧ camDataHi t = 0 ∧ t.lastDisp = ⟨0, 0⟩ ∧
    t.rxCount = 0 ∧ t.txCount = 0 ∧ t.dropCount = 0 ∧ t.learnFailCount = 0 ∧
    (∀ p, portGet t.ports p = ⟨false, 0⟩) ∧ (∀ k, camValid t.cam k = false) ∧
    t.ingress = s.ingress ∧ t.egress = s.egress ∧
    (∀ rest, step (s.withSchedule (.reset :: rest)) = .next (resetBlock (s.withSchedule rest)))

/-- The invariant holds after reset, whatever the parameters. -/
def Obligations.ResetMeetsInv : Prop :=
  MachineInv State.reset ∧ ∀ c : Params, MachineInv (State.resetWith c)

/-- Every step keeps the invariant (R23, R32, R33, R143). -/
def Obligations.StepKeepsInv : Prop :=
  ∀ s t : State, MachineInv s → step s = .next t → MachineInv t

/-- From reset, with any parameters and whatever events come (frames of any bytes, transactions at
any address, any choice of ARBITER, resets), every run goes on: no fault, no refusal, and the
invariant holds throughout (R50, R91, R148). -/
def Obligations.EveryRunFromResetGoesOn : Prop :=
  ∀ (c : Params) (events : List Event) (k : Nat),
    ∃ t : State, Host.Core.run Sys2Proof.core k ((State.resetWith c).withSchedule events) =
      Host.Outcome.next t ∧ MachineInv t

/-- A step whose next event is a host transaction runs the decoded instruction, with the event taken
off the schedule (R51; the schedule is the model's form of the total order, assumption log 2). -/
def Obligations.StepRunsHostTransaction : Prop :=
  ∀ (s : State) (r : HostReq) (rest : List Event), s.schedule = .transact r :: rest →
    step s = exec (decodeHost s.params r) (s.withSchedule rest)

/-- A step whose next event is an enabled frame step on port `p` runs the decoded class of the
head of `IN[p]`, with the event taken off the schedule; the meaning takes the frame off the
channel. Any port with a waiting frame can be the one (R48, R91; assumption logs 2 and 18). -/
def Obligations.StepRunsServedFrame : Prop :=
  ∀ (s : State) (p : PortId) (raw : Frame) (waiting : List Frame) (rest : List Event),
    s.enable = true → p.toNat < s.params.nPorts → portGet s.ingress p = raw :: waiting →
    s.schedule = .serve p :: rest →
    step s = exec (decodeFrame s.params s.marker p raw) (s.withSchedule rest)

/-- While ENABLE is 0, or where the channel is empty, no frame is taken: the state stays as it is
(R48). Where no event is to come, the block waits (the model's choice, assumption logs 3 and 4;
R156). -/
def Obligations.NoFrameStepUnlessEnabled : Prop :=
  (∀ (s : State) (p : PortId) (rest : List Event), s.schedule = .serve p :: rest →
    (s.enable = false ∨ portGet s.ingress p = []) → step s = .next (s.withSchedule rest)) ∧
  ∀ s : State, s.schedule = [] → step s = .next s

/-- The link layer appends a frame to the end of one channel and touches nothing else
(R48, R142; the schedule, from which the event goes, is the model's own, assumption log 2). -/
def Obligations.DeliveryAppendsToOneChannel : Prop :=
  ∀ (s : State) (p : PortId) (f : Frame) (rest : List Event), p.toNat < s.params.nPorts →
    s.schedule = .deliver p f :: rest →
    ∃ t, step s = .next t ∧ portGet t.ingress p = portGet s.ingress p ++ [f] ∧
      (∀ q, q ≠ p → portGet t.ingress q = portGet s.ingress q) ∧
      { t with ingress := s.ingress, schedule := s.schedule } = s

/-- A table word placed with `withFetchWord` runs as the instruction that the decoder reads from it
(the model's word layout, assumption log 11). -/
def Obligations.PlacedWordRunsAsDecoded : Prop :=
  ∀ (s : State) (nbits w : Nat) (i : Instr), s.params = Config.params →
    decodeTableWord nbits w = some i → step (s.withFetchWord nbits w) = exec i s

/-! Host reads (45_host_interface.md). Each equation says that nothing but the response changes. -/

/-- RD_ID, RD_NPORTS, RD_CAMSIZE and the four counter reads (R118, R126, R127, R137). -/
def Obligations.ConstantAndCounterReads : Prop :=
  ∀ (s : State) (d : Word),
    (decodeHost s.params ⟨false, 0x000, d⟩ = .rdId ∧
      exec .rdId s = .next (s.withResponse (some ⟨0x4C325357, false⟩))) ∧
    (decodeHost s.params ⟨false, 0x010, d⟩ = .rdNports ∧
      exec .rdNports s = .next (s.withResponse (some ⟨BitVec.ofNat 32 s.params.nPorts, false⟩))) ∧
    (decodeHost s.params ⟨false, 0x014, d⟩ = .rdCamsize ∧
      exec .rdCamsize s =
        .next (s.withResponse (some ⟨BitVec.ofNat 32 s.params.camEntries, false⟩))) ∧
    (decodeHost s.params ⟨false, 0x030, d⟩ = .rdRxCount ∧
      exec .rdRxCount s = .next (s.withResponse (some ⟨s.rxCount, false⟩))) ∧
    (decodeHost s.params ⟨false, 0x034, d⟩ = .rdTxCount ∧
      exec .rdTxCount s = .next (s.withResponse (some ⟨s.txCount, false⟩))) ∧
    (decodeHost s.params ⟨false, 0x038, d⟩ = .rdDropCount ∧
      exec .rdDropCount s = .next (s.withResponse (some ⟨s.dropCount, false⟩))) ∧
    (decodeHost s.params ⟨false, 0x03C, d⟩ = .rdLearnFailCount ∧
      exec .rdLearnFailCount s = .next (s.withResponse (some ⟨s.learnFailCount, false⟩)))

/-- RD_CTRL, RD_TPID, RD_ADMIN_DOWN, RD_MODE and RD_CAM_INDEX (R120, R124, R128, R130, R132). -/
def Obligations.ControlReads : Prop :=
  ∀ (s : State) (d : Word),
    (decodeHost s.params ⟨false, 0x004, d⟩ = .rdCtrl ∧
      exec .rdCtrl s =
        .next (s.withResponse (some ⟨if s.enable then 1 else 0, false⟩))) ∧
    (decodeHost s.params ⟨false, 0x00C, d⟩ = .rdTpid ∧
      exec .rdTpid s = .next (s.withResponse (some ⟨s.marker.zeroExtend 32, false⟩))) ∧
    (decodeHost s.params ⟨false, 0x018, d⟩ = .rdAdminDown ∧
      ∃ v : Word, exec .rdAdminDown s = .next (s.withResponse (some ⟨v, false⟩)) ∧
        ∀ k, v.getLsbD k = (s.adminDown.getLsbD k && decide (k < s.params.nPorts))) ∧
    (decodeHost s.params ⟨false, 0x01C, d⟩ = .rdMode ∧
      exec .rdMode s =
        .next (s.withResponse (some ⟨if s.exitCheckEn then 1 else 0, false⟩))) ∧
    (decodeHost s.params ⟨false, 0x020, d⟩ = .rdCamIndex ∧
      exec .rdCamIndex s = .next (s.withResponse (some ⟨s.camIndex.zeroExtend 32, false⟩)))

/-- RD_STATUS shows LEARN_FAIL, MALFORMED, OVERSIZE and the live level CAM_FULL in bits 0 to 3, and 0
above (R19, R122). -/
def Obligations.StatusRead : Prop :=
  ∀ (s : State) (d : Word), decodeHost s.params ⟨false, 0x008, d⟩ = .rdStatus ∧
    ∃ v : Word, exec .rdStatus s = .next (s.withResponse (some ⟨v, false⟩)) ∧
      v.getLsbD 0 = s.learnFail ∧ v.getLsbD 1 = s.malformed ∧ v.getLsbD 2 = s.oversize ∧
      (v.getLsbD 3 = true ↔ ∀ k, k < s.params.camEntries → camValid s.cam k = true) ∧
      ∀ k, 3 < k → v.getLsbD k = false

/-- RD_CAM_DATA_LO and RD_CAM_DATA_HI show the selected entry, and 0 for an invalid entry or an index
past the table (R85, R134, R135). -/
def Obligations.CamDataReads : Prop :=
  ∀ (s : State) (d : Word),
    decodeHost s.params ⟨false, 0x024, d⟩ = .rdCamDataLo ∧
    decodeHost s.params ⟨false, 0x028, d⟩ = .rdCamDataHi ∧
    (∀ e, s.camIndex.toNat < s.params.camEntries → camEntry? s.cam s.camIndex.toNat = some e →
      exec .rdCamDataLo s = .next (s.withResponse (some ⟨e.mac.extractLsb' 0 32, false⟩)) ∧
      exec .rdCamDataHi s = .next (s.withResponse (some
        ⟨(1 : BitVec 1) ++ (0 : BitVec 10) ++ e.port ++ e.mac.extractLsb' 32 16, false⟩))) ∧
    ((s.params.camEntries ≤ s.camIndex.toNat ∨ camEntry? s.cam s.camIndex.toNat = none) →
      exec .rdCamDataLo s = .next (s.withResponse (some ⟨0, false⟩)) ∧
      exec .rdCamDataHi s = .next (s.withResponse (some ⟨0, false⟩)))

/-- RD_LAST_DISP for every code that is not reserved (R136); a reserved one, which no run produces,
faults (93_implementation_defined.md U10, assumption log 9). -/
def Obligations.LastDispRead : Prop :=
  ∀ (s : State) (d : Word), decodeHost s.params ⟨false, 0x02C, d⟩ = .rdLastDisp ∧
    (s.lastDisp.disp.toNat ≤ 6 →
      exec .rdLastDisp s = .next (s.withResponse (some
        ⟨(0 : BitVec 19) ++ s.lastDisp.port ++ (0 : BitVec 4) ++ s.lastDisp.disp, false⟩))) ∧
    (6 < s.lastDisp.disp.toNat → exec .rdLastDisp s = .fault .reservedDisposition)

/-- RD_PORT_CFG: the fields of a port that exists; a port that does not falls to BUS_ERR (R138). -/
def Obligations.PortCfgRead : Prop :=
  ∀ (s : State) (d : Word) (p : PortId),
    (p.toNat < s.params.nPorts →
      decodeHost s.params ⟨false, 0x100 + 4 * p.zeroExtend 12, d⟩ = .rdPortCfg p) ∧
    (s.params.nPorts ≤ p.toNat →
      ∃ t, decodeHost s.params ⟨false, 0x100 + 4 * p.zeroExtend 12, d⟩ = .busErr t) ∧
    exec (.rdPortCfg p) s = .next (s.withResponse (some
      ⟨(0 : BitVec 4) ++ (portGet s.ports p).accessVlan ++ (0 : BitVec 15) ++
        BitVec.ofBool (portGet s.ports p).trunk, false⟩))

/-! Host writes (45_host_interface.md). -/

/-- A write to a read-only register completes without error and changes nothing (R119). -/
def Obligations.ReadOnlyWritesIgnored : Prop :=
  ∀ (s : State) (d : Word) (k : BitVec 2),
    let done : StepResult := .next (s.withResponse (some ⟨0, false⟩))
    (decodeHost s.params ⟨true, 0x000, d⟩ = .wrId d ∧ exec (.wrId d) s = done) ∧
    (decodeHost s.params ⟨true, 0x010, d⟩ = .wrNports d ∧ exec (.wrNports d) s = done) ∧
    (decodeHost s.params ⟨true, 0x014, d⟩ = .wrCamsize d ∧ exec (.wrCamsize d) s = done) ∧
    (decodeHost s.params ⟨true, 0x024, d⟩ = .wrCamDataLo d ∧ exec (.wrCamDataLo d) s = done) ∧
    (decodeHost s.params ⟨true, 0x028, d⟩ = .wrCamDataHi d ∧ exec (.wrCamDataHi d) s = done) ∧
    (decodeHost s.params ⟨true, 0x02C, d⟩ = .wrLastDisp d ∧ exec (.wrLastDisp d) s = done) ∧
    (decodeHost s.params ⟨true, 0x030 + 4 * k.zeroExtend 12, d⟩ = .wrCounter k d ∧
      exec (.wrCounter k d) s = done)

/-- WR_CTRL: bit 1 flushes, bit 0 becomes ENABLE, together; bits 31:2 have no effect (R121). -/
def Obligations.CtrlWrite : Prop :=
  ∀ (s : State) (d : Word), decodeHost s.params ⟨true, 0x004, d⟩ = .wrCtrl d ∧
    exec (.wrCtrl d) s = .next { s with
      cam := if d.getLsbD 1 = true then [] else s.cam
      enable := d.getLsbD 0
      response := some ⟨0, false⟩ }

/-- WR_STATUS: writing 1 clears a sticky bit, writing 0 leaves it; nothing else changes (R123). -/
def Obligations.StatusWrite : Prop :=
  ∀ (s : State) (d : Word), decodeHost s.params ⟨true, 0x008, d⟩ = .wrStatus d ∧
    exec (.wrStatus d) s = .next { s with
      learnFail := if d.getLsbD 0 = true then false else s.learnFail
      malformed := if d.getLsbD 1 = true then false else s.malformed
      oversize := if d.getLsbD 2 = true then false else s.oversize
      response := some ⟨0, false⟩ }

/-- WR_TPID and WR_MODE: err = 1 and no change while enabled, else the field is written (R125,
R131). -/
def Obligations.TpidAndModeWrites : Prop :=
  ∀ (s : State) (d : Word),
    (decodeHost s.params ⟨true, 0x00C, d⟩ = .wrTpid d ∧
      exec (.wrTpid d) s = if s.enable then .next (s.withResponse (some ⟨0, true⟩))
        else .next { s with marker := d.extractLsb' 0 16, response := some ⟨0, false⟩ }) ∧
    (decodeHost s.params ⟨true, 0x01C, d⟩ = .wrMode d ∧
      exec (.wrMode d) s = if s.enable then .next (s.withResponse (some ⟨0, true⟩))
        else .next { s with exitCheckEn := d.getLsbD 0, response := some ⟨0, false⟩ })

/-- WR_PORT_CFG: err = 1 and no change while enabled, else the port's two fields are written and
every other port keeps its own; a port that does not exist falls to BUS_ERR (R139). -/
def Obligations.PortCfgWrite : Prop :=
  ∀ (s : State) (d : Word) (p : PortId),
    (p.toNat < s.params.nPorts →
      decodeHost s.params ⟨true, 0x100 + 4 * p.zeroExtend 12, d⟩ = .wrPortCfg p d) ∧
    (s.params.nPorts ≤ p.toNat →
      ∃ t, decodeHost s.params ⟨true, 0x100 + 4 * p.zeroExtend 12, d⟩ = .busErr t) ∧
    (s.enable = true → exec (.wrPortCfg p d) s = .next (s.withResponse (some ⟨0, true⟩))) ∧
    (s.enable = false → ∃ t, exec (.wrPortCfg p d) s = .next t ∧
      portGet t.ports p = ⟨d.getLsbD 0, d.extractLsb' 16 12⟩ ∧
      (∀ q, q ≠ p → portGet t.ports q = portGet s.ports q) ∧
      { t with ports := s.ports } = s.withResponse (some ⟨0, false⟩))

/-- WR_ADMIN_DOWN, with the bits of ports that do not exist dropped, and WR_CAM_INDEX; both are
allowed while enabled (R129, R133). -/
def Obligations.DynamicControlWrites : Prop :=
  ∀ (s : State) (d : Word),
    (decodeHost s.params ⟨true, 0x018, d⟩ = .wrAdminDown d ∧
      ∃ v : Word, exec (.wrAdminDown d) s =
          .next { s with adminDown := v, response := some ⟨0, false⟩ } ∧
        ∀ k, v.getLsbD k = (d.getLsbD k && decide (k < s.params.nPorts))) ∧
    (decodeHost s.params ⟨true, 0x020, d⟩ = .wrCamIndex d ∧
      exec (.wrCamIndex d) s =
        .next { s with camIndex := d.extractLsb' 0 16, response := some ⟨0, false⟩ })

/-- A transaction at a misaligned or unmapped address, or at a PORT_CFG offset of no port, is
BUS_ERR: it answers err = 1 and rdata 0 and changes nothing (R45, R140). -/
def Obligations.BusErrorTransactions : Prop :=
  ∀ (s : State) (r : HostReq),
    (r.addr.toNat % 4 ≠ 0 ∨ (0x040 ≤ r.addr.toNat ∧ r.addr.toNat < 0x100) ∨
      0x180 ≤ r.addr.toNat ∨
      (0x100 ≤ r.addr.toNat ∧ s.params.nPorts ≤ (r.addr.toNat - 0x100) / 4)) →
    decodeHost s.params r = .busErr r.tword ∧
    exec (.busErr r.tword) s = .next (s.withResponse (some ⟨0, true⟩))

/-- A transaction completes with err = 1, and changes nothing, exactly where no register is mapped or
the write is locked (R147). -/
def Obligations.ErrorResponsesExactly : Prop :=
  ∀ (s : State) (r : HostReq),
    (turnedAway s r = true →
      exec (decodeHost s.params r) s = .next (s.withResponse (some ⟨0, true⟩))) ∧
    ∀ t, turnedAway s r = false → exec (decodeHost s.params r) s = .next t →
      ∃ d : Word, t.response = some ⟨d, false⟩

/-- No host read has a side effect: only the response changes (R47). -/
def Obligations.HostReadsChangeNothing : Prop :=
  ∀ (s t : State) (r : HostReq), r.rw = false → exec (decodeHost s.params r) s = .next t →
    ∃ a, t = s.withResponse (some a)

/-- No host transaction writes LAST_DISP, a counter or a channel, or a CAM entry: the table stays
or is flushed. A write's rdata is 0 (R40, R86, R117, R142). The schedule and the parameters, which
stay too, are the model's own fields (assumption logs 1 and 2). -/
def Obligations.HostCannotReachFrameState : Prop :=
  ∀ (s t : State) (r : HostReq), exec (decodeHost s.params r) s = .next t →
    t.lastDisp = s.lastDisp ∧ t.rxCount = s.rxCount ∧ t.txCount = s.txCount ∧
    t.dropCount = s.dropCount ∧ t.learnFailCount = s.learnFailCount ∧
    t.ingress = s.ingress ∧ t.egress = s.egress ∧ t.schedule = s.schedule ∧ t.params = s.params ∧
    t.cam = (if flushes (.transact r) then [] else s.cam) ∧
    (r.rw = true → ∃ b, t.response = some ⟨0, b⟩)

/-- While ENABLE is 1, no step but a reset changes the port table, TPID or MODE (R16, R151; a
reset as an event is assumption log 5). -/
def Obligations.RunningConfigurationIsLocked : Prop :=
  ∀ (s t : State), s.enable = true → s.schedule.head? ≠ some .reset → step s = .next t →
    t.ports = s.ports ∧ t.marker = s.marker ∧ t.exitCheckEn = s.exitCheckEn

/-- While ENABLE is 0, only a host transaction or a reset changes the block: a step that is a
delivery or a frame-step choice leaves everything but the ingress channels and the schedule (R18,
R48). That the response stays and that a reset is an event are the model's choice (assumption logs
5 and 6). -/
def Obligations.DisabledBlockIsQuiet : Prop :=
  ∀ (s t : State), s.enable = false → s.schedule.head? ≠ some .reset →
    (∀ r, s.schedule.head? ≠ some (.transact r)) → step s = .next t →
    { t with ingress := s.ingress, schedule := s.schedule } = s

/-! Frames (44_forwarding.md). -/

/-- The three drop classes: decoded by length (and marker), counted, recorded, and nothing else; in
particular nothing learned and nothing sent (R102, R103, R104, R105). -/
def Obligations.DroppedFrames : Prop :=
  ∀ (s : State) (p : PortId) (raw : Frame),
    (s.params.maxFrameBytes < raw.length →
      decodeFrame s.params s.marker p raw = .frameOversize p raw ∧
      exec (.frameOversize p raw) s = .next { s with
        ingress := portSet s.ingress p (portGet s.ingress p).tail
        rxCount := s.rxCount + 1
        dropCount := s.dropCount + 1
        oversize := true
        lastDisp := ⟨6, p⟩ }) ∧
    (raw.length < 14 →
      decodeFrame s.params s.marker p raw = .frameRunt p raw ∧
      exec (.frameRunt p raw) s = .next { s with
        ingress := portSet s.ingress p (portGet s.ingress p).tail
        rxCount := s.rxCount + 1
        dropCount := s.dropCount + 1
        malformed := true
        lastDisp := ⟨4, p⟩ }) ∧
    (14 ≤ raw.length → raw.length < 18 → be16 raw 12 = s.marker →
      decodeFrame s.params s.marker p raw = .frameTaggedRunt p raw ∧
      exec (.frameTaggedRunt p raw) s = .next { s with
        ingress := portSet s.ingress p (portGet s.ingress p).tail
        rxCount := s.rxCount + 1
        dropCount := s.dropCount + 1
        malformed := true
        lastDisp := ⟨5, p⟩ })

/-- A well-formed frame of a forwarded class completes: it is taken and counted, its source learned,
each admitted port sent its rewritten copy and no other port anything, the copies counted, and the
disposition recorded; nothing else changes (R91, R93, R99, R100, R101, R106, R107, R108, R109). -/
def Obligations.ForwardedFrames : Prop :=
  ∀ (s : State) (i : Instr) (p : PortId) (raw : Frame), forwardedFrame i = some (p, raw) →
    i.wellFormed s.params s.marker = true →
    ∃ h t, parseHeader s.marker raw = some h ∧ exec i s = .next t ∧
      t.ingress = portSet s.ingress p (portGet s.ingress p).tail ∧
      t.rxCount = s.rxCount + 1 ∧
      t.cam = (learn h.src p s).cam ∧ t.learnFail = (learn h.src p s).learnFail ∧
      t.learnFailCount = (learn h.src p s).learnFailCount ∧
      (∀ o, portGet t.egress o = portGet s.egress o ++
        (if o ∈ (workOf s p h).admitted then
          [rewrite s.marker (isTrunk s o) h.tagged (workOf s p h).vlan (workOf s p h).exit raw]
        else [])) ∧
      t.txCount = s.txCount + BitVec.ofNat 32 (workOf s p h).admitted.length ∧
      t.lastDisp = ⟨dispCode (workDisp (workOf s p h)), p⟩ ∧
      { t with ingress := s.ingress, rxCount := s.rxCount, cam := s.cam, learnFail := s.learnFail,
               learnFailCount := s.learnFailCount, egress := s.egress, txCount := s.txCount,
               lastDisp := s.lastDisp } = s

/-- Learn, entry by entry: a known MAC's port is overwritten and nothing else; a new MAC takes the
least free entry and nothing else changes; with the table full only the sticky bit and the counter
change (R82). -/
def Obligations.LearnWritesOneEntry : Prop :=
  ∀ (s : State) (m : Mac) (p : PortId), Cam.wf s.params s.cam →
    (∀ k e, camEntry? s.cam k = some e → e.mac = m →
      (∀ j, camEntry? (learn m p s).cam j =
        if j = k then some { e with port := p } else camEntry? s.cam j) ∧
      { learn m p s with cam := s.cam } = s) ∧
    (∀ k, (∀ e ∈ s.cam, e.mac ≠ m) → k < s.params.camEntries → camValid s.cam k = false →
      (∀ j, j < k → camValid s.cam j = true) →
      (∀ j, camEntry? (learn m p s).cam j =
        if j = k then some ⟨k, m, p⟩ else camEntry? s.cam j) ∧
      { learn m p s with cam := s.cam } = s) ∧
    ((∀ e ∈ s.cam, e.mac ≠ m) → (∀ k, k < s.params.camEntries → camValid s.cam k = true) →
      learn m p s = { s with learnFail := true, learnFailCount := s.learnFailCount + 1 })

/-- After a forwarded frame its source looks up to its ingress port, unless the source was not
known and the table was full (R82, R93, R112). -/
def Obligations.SourceIsLearned : Prop :=
  ∀ (s t : State) (i : Instr) (p : PortId) (raw : Frame), forwardedFrame i = some (p, raw) →
    Cam.wf s.params s.cam → exec i s = .next t →
    ∃ h, parseHeader s.marker raw = some h ∧
      ((camLookup s.cam h.src ≠ none ∨ camFull s = false) → camLookup t.cam h.src = some p) ∧
      ∀ m, m ≠ h.src → camLookup t.cam m = camLookup s.cam m

/-- Over any step, a learned address keeps its port, unless the step is a flush or a reset, or a
frame from that very address arrives on another port, which is then the port it has (R82, R84,
R112, R156; a reset as an event is assumption log 5). -/
def Obligations.LearnedAddressStays : Prop :=
  ∀ (s t : State) (e : Event) (rest : List Event) (m : Mac) (p : PortId), MachineInv s →
    s.schedule = e :: rest → step s = .next t → camLookup s.cam m = some p →
    camLookup t.cam m = some p ∨
    ((flushes e = true ∨ e = .reset) ∧ t.cam = []) ∨
    ∃ q raw h, e = .serve q ∧ enabledHead s q = some raw ∧ parseHeader s.marker raw = some h ∧
      h.src = m ∧ camLookup t.cam m = some q

/-- A valid entry's MAC never changes while it stays valid, whatever the step (R162). -/
def Obligations.ValidEntryKeepsItsMac : Prop :=
  ∀ (s t : State) (k : Nat) (e e' : CamCell), MachineInv s → step s = .next t →
    camEntry? s.cam k = some e → camEntry? t.cam k = some e' → e'.mac = e.mac

/-- The flush invalidates every entry and nothing else; every lookup then answers none, and CAM_FULL
reads 0 (R84). -/
def Obligations.FlushEmptiesTable : Prop :=
  ∀ s : State, (∀ k, camValid (camFlush s).cam k = false) ∧
    (∀ m, camLookup (camFlush s).cam m = none) ∧ camFull (camFlush s) = false ∧
    { camFlush s with cam := s.cam } = s

/-- Lookup answers the port of the valid entry that holds the address, and none where there is none
(R83). -/
def Obligations.LookupFindsTheEntry : Prop :=
  ∀ (c : Params) (cam : Cam) (m : Mac), Cam.wf c cam →
    (∀ p, camLookup cam m = some p ↔ ∃ k e, camEntry? cam k = some e ∧ e.mac = m ∧ e.port = p) ∧
    (camLookup cam m = none ↔ ∀ k e, camEntry? cam k = some e → e.mac ≠ m)

/-- The forwarding mode, and the candidates with the administratively disabled ports removed in both
modes (R94, R95, R96). -/
def Obligations.ModeAndCandidates : Prop :=
  ∀ (s : State) (p o q : PortId) (dst : Mac),
    (dst.getLsbD 40 = false → camLookup s.cam dst = some q → q ≠ p →
      selectMode s p dst = .unicastKnown q) ∧
    ((dst.getLsbD 40 = true ∨ camLookup s.cam dst = none ∨ camLookup s.cam dst = some p) →
      selectMode s p dst = .flood) ∧
    (o ∈ upCandidates s p (.unicastKnown q) ↔ o = q ∧ s.adminDown.getLsbD o.toNat = false) ∧
    (o ∈ upCandidates s p .flood ↔
      o.toNat < s.params.nPorts ∧ o ≠ p ∧ s.adminDown.getLsbD o.toNat = false)

/-- The two membership tests, and which mode uses which: the admitted ports are the candidates
that pass the extended test in UNICAST_KNOWN mode and the basic test in FLOOD mode (R97, R98,
R99). -/
def Obligations.MembershipTests : Prop :=
  (∀ (s : State) (vlan : Option VlanId) (exit : Option ExitId) (dst : Mac) (o : PortId),
    (basicTest s vlan o = true ↔
      (portGet s.ports o).trunk = true ∨ vlan = some (portGet s.ports o).accessVlan) ∧
    (extendedTest s vlan exit dst o = true ↔
      (portGet s.ports o).trunk = true ∨ (vlan = some (portGet s.ports o).accessVlan ∧
        (s.exitCheckEn = false ∨ exit = some (exitIdFromMac dst))))) ∧
  ∀ (s : State) (p o : PortId) (h : Header), let w := frameWork s p h
    (∀ q, w.mode = .unicastKnown q →
      (o ∈ w.admitted ↔ o ∈ w.cand ∧ extendedTest s w.vlan w.exit h.dst o = true)) ∧
    (w.mode = .flood → (o ∈ w.admitted ↔ o ∈ w.cand ∧ basicTest s w.vlan o = true))

/-- The effective VLAN and exit id (R87, R88). -/
def Obligations.EffectiveIds : Prop :=
  ∀ (s : State) (p : PortId) (h : Header),
    (isTrunk s p = true → h.tagged = true →
      effectiveVlan s p h = some (h.tci.extractLsb' 0 12) ∧
      effectiveExit s p h = some (h.tci.extractLsb' 12 4)) ∧
    (isTrunk s p = true → h.tagged = false →
      effectiveVlan s p h = none ∧ effectiveExit s p h = none) ∧
    (isTrunk s p = false → effectiveVlan s p h = some (accessVlan s p) ∧
      effectiveExit s p h = some (exitIdFromMac h.src))

/-- ComputeExitIdFromMac is the sum of the 12 nibbles modulo 16 (R89). -/
def Obligations.ExitIdIsNibbleSum : Prop :=
  ∀ m : Mac, (exitIdFromMac m).toNat = nibbleSum m % 16

/-- The four cases of Rewrite: what is inserted, kept or stripped, and the length (R71, R73, R74,
R75, R76). -/
def Obligations.RewriteCases : Prop :=
  ∀ (marker : BitVec 16) (vlan : Option VlanId) (exit : Option ExitId) (raw : Frame),
    (12 ≤ raw.length →
      rewrite marker true false vlan exit raw = raw.take 12 ++
        ([marker.extractLsb' 8 8, marker.extractLsb' 0 8,
          exit.getD 0xF ++ (vlan.getD 0xFFF).extractLsb' 8 4,
          (vlan.getD 0xFFF).extractLsb' 0 8] : List Byte) ++ raw.drop 12 ∧
      (rewrite marker true false vlan exit raw).length = raw.length + 4) ∧
    rewrite marker true true vlan exit raw = raw ∧
    (16 ≤ raw.length →
      rewrite marker false true vlan exit raw = raw.take 12 ++ raw.drop 16 ∧
      (rewrite marker false true vlan exit raw).length = raw.length - 4) ∧
    rewrite marker false false vlan exit raw = raw

/-- Every frame that a forwarded class sends to a trunk port bears the marker at bytes 12 and 13
(R77). -/
def Obligations.TrunkFramesBearTheMarker : Prop :=
  ∀ (s : State) (raw : Frame) (h : Header) (w : Work) (o : PortId),
    parseHeader s.marker raw = some h → isTrunk s o = true →
    Frame.bearsMarker s.marker (egressFrame s h w raw o) = true

/-- A frame is never sent back out of its own ingress port (R110). -/
def Obligations.NoSelfForwarding : Prop :=
  (∀ (s : State) (p : PortId) (h : Header), p ∉ (frameWork s p h).admitted) ∧
  ∀ (s t : State) (i : Instr) (p : PortId) (raw : Frame), anyFrame i = some (p, raw) →
    exec i s = .next t → portGet t.egress p = portGet s.egress p

/-- Flooding respects VLANs: an admitted access port is in the frame's VLAN, and with no port down
the admitted set is exactly the other trunks and the other access ports of that VLAN (R111). -/
def Obligations.FloodVlanIsolation : Prop :=
  ∀ (s : State) (p : PortId) (h : Header) (v : VlanId),
    (frameWork s p h).mode = .flood → (frameWork s p h).vlan = some v →
    (∀ o ∈ (frameWork s p h).admitted, isTrunk s o = false → accessVlan s o = v) ∧
    (s.adminDown = 0 → ∀ o, o ∈ (frameWork s p h).admitted ↔
      o.toNat < s.params.nPorts ∧ o ≠ p ∧ (isTrunk s o = true ∨ accessVlan s o = v))

/-- No frame from an access port reaches an access port of another VLAN, in any mode, whatever the
frame's bytes and whatever the table holds (R87, R97, R98). -/
def Obligations.AccessPortsOfOtherVlansAreUnreachable : Prop :=
  ∀ (s t : State) (i : Instr) (p o : PortId) (raw : Frame), anyFrame i = some (p, raw) →
    isTrunk s p = false → isTrunk s o = false → accessVlan s o ≠ accessVlan s p →
    exec i s = .next t → portGet t.egress o = portGet s.egress o

/-- A frame that comes untagged on a trunk reaches no access port (R87, R97, R98, R109). -/
def Obligations.UntaggedTrunkFrameReachesOnlyTrunks : Prop :=
  ∀ (s t : State) (i : Instr) (p o : PortId) (raw : Frame) (h : Header),
    forwardedFrame i = some (p, raw) → parseHeader s.marker raw = some h → h.tagged = false →
    isTrunk s p = true → isTrunk s o = false → exec i s = .next t →
    portGet t.egress o = portGet s.egress o

/-- A port that is administratively down is sent nothing; a known destination behind one is sent to
nobody: the frame is FILTERED, not flooded (R96). -/
def Obligations.AdminDownPortIsSentNothing : Prop :=
  ∀ (s t : State) (i : Instr) (p : PortId) (raw : Frame), anyFrame i = some (p, raw) →
    exec i s = .next t →
    (∀ o, isAdminDown s o = true → portGet t.egress o = portGet s.egress o) ∧
    ∀ h q, forwardedFrame i = some (p, raw) → parseHeader s.marker raw = some h →
      (workOf s p h).mode = .unicastKnown q → isAdminDown s q = true →
      t.egress = s.egress ∧ t.lastDisp = ⟨3, p⟩

/-- Tagged frames cross trunks unchanged and leave access ports with the tag stripped (R113). -/
def Obligations.TrunkTransparency : Prop :=
  ∀ (s t : State) (i : Instr) (p o : PortId) (raw : Frame) (h : Header),
    forwardedFrame i = some (p, raw) → parseHeader s.marker raw = some h → h.tagged = true →
    exec i s = .next t → o ∈ (workOf s p h).admitted →
    portGet t.egress o = portGet s.egress o ++
      [if isTrunk s o then raw else raw.take 12 ++ raw.drop 16] ∧
    (raw.take 12 ++ raw.drop 16).length = raw.length - 4

/-- A unicast to a host learned on another port reaches exactly that port or no port (R94, R98,
R101, R114). Between access ports: where the port is up, the VLANs are equal, and the exit-id
check is off or the two addresses' exit ids are equal. To a trunk port: where it is up. From a
trunk to an access port: where the port is up, the frame is tagged with the port's VLAN, and the
check is off or the tag's exit id is the destination's. -/
def Obligations.UnicastConvergence : Prop :=
  ∀ (s : State) (i : Instr) (p q : PortId) (raw : Frame) (h : Header),
    Cam.wf s.params s.cam → forwardedFrame i = some (p, raw) → parseHeader s.marker raw = some h →
    q ≠ p → macIsMulticast h.dst = false → h.dst ≠ h.src → camLookup s.cam h.dst = some q →
    ∃ t, exec i s = .next t ∧
      (isTrunk s p = false → isTrunk s q = false →
        if isAdminDown s q = false ∧ accessVlan s q = accessVlan s p ∧
            (s.exitCheckEn = false ∨ exitIdFromMac h.src = exitIdFromMac h.dst) then
          t.egress = portSet s.egress q (portGet s.egress q ++
            [if h.tagged then raw.take 12 ++ raw.drop 16 else raw]) ∧ t.lastDisp = ⟨1, p⟩
        else t.egress = s.egress ∧ t.lastDisp = ⟨3, p⟩) ∧
      (isTrunk s q = true →
        if isAdminDown s q = false then
          t.egress = portSet s.egress q (portGet s.egress q ++
            [rewrite s.marker true h.tagged (effectiveVlan s p h) (effectiveExit s p h) raw]) ∧
          t.lastDisp = ⟨1, p⟩
        else t.egress = s.egress ∧ t.lastDisp = ⟨3, p⟩) ∧
      (isTrunk s p = true → isTrunk s q = false →
        if isAdminDown s q = false ∧ h.tagged = true ∧ tciVlan h.tci = accessVlan s q ∧
            (s.exitCheckEn = false ∨ tciExit h.tci = exitIdFromMac h.dst) then
          t.egress = portSet s.egress q (portGet s.egress q ++
            [raw.take 12 ++ raw.drop 16]) ∧ t.lastDisp = ⟨1, p⟩
        else t.egress = s.egress ∧ t.lastDisp = ⟨3, p⟩)

/-- A frame with a multicast destination floods in every case, and so does one whose destination
is its own source or was learned on its ingress port (R93, R94, R107, R109). -/
def Obligations.GroupAndLocalDestinationsFlood : Prop :=
  ∀ (s : State) (i : Instr) (p : PortId) (raw : Frame) (h : Header),
    i.wellFormed s.params s.marker = true → forwardedFrame i = some (p, raw) →
    parseHeader s.marker raw = some h →
    ((i = .frameTaggedMcast p raw ∨ i = .frameUntaggedMcast p raw) → (workOf s p h).mode = .flood) ∧
    (Cam.wf s.params s.cam → (h.dst = h.src ∨ camLookup s.cam h.dst = some p) →
      (workOf s p h).mode = .flood)

/-- A frame step sends at most one copy in UNICAST_KNOWN mode and at most N_PORTS - 1 in FLOOD mode
(R115). -/
def Obligations.TransmitBounds : Prop :=
  ∀ (s : State) (p : PortId) (h : Header), p.toNat < s.params.nPorts →
    (∀ q, (frameWork s p h).mode = .unicastKnown q → (frameWork s p h).admitted.length ≤ 1) ∧
    ((frameWork s p h).mode = .flood → (frameWork s p h).admitted.length ≤ s.params.nPorts - 1)

/-- Every frame step ends with exactly one of the codes 1 to 6, recorded with the ingress port,
and counts one frame received (R143, R144). Codes 1 and 2 mean that at least one copy was sent,
code 1 just one; codes 3 to 6 that none was. A frame that is not dropped gets code 1 or 3 in
UNICAST_KNOWN mode and 2 or 3 in FLOOD mode, so code 3 exactly when no copy was sent (R101). -/
def Obligations.DispositionTellsWhatWasSent : Prop :=
  ∀ (s t : State) (i : Instr) (p : PortId) (raw : Frame), anyFrame i = some (p, raw) →
    exec i s = .next t →
    t.lastDisp.port = p ∧ 1 ≤ t.lastDisp.disp.toNat ∧ t.lastDisp.disp.toNat ≤ 6 ∧
    t.rxCount = s.rxCount + 1 ∧
    (3 ≤ t.lastDisp.disp.toNat → t.egress = s.egress ∧ t.txCount = s.txCount) ∧
    (t.lastDisp.disp = 1 → t.egress ≠ s.egress ∧ t.txCount = s.txCount + 1) ∧
    (t.lastDisp.disp = 2 → t.egress ≠ s.egress ∧ t.txCount ≠ s.txCount) ∧
    (4 ≤ t.lastDisp.disp.toNat ↔ t.dropCount ≠ s.dropCount) ∧
    (4 ≤ t.lastDisp.disp.toNat → t.cam = s.cam) ∧
    ∀ h, forwardedFrame i = some (p, raw) → parseHeader s.marker raw = some h →
      (t.lastDisp.disp = 3 ↔ t.egress = s.egress) ∧
      (∀ q, (workOf s p h).mode = .unicastKnown q →
        t.lastDisp.disp = 1 ∨ t.lastDisp.disp = 3) ∧
      ((workOf s p h).mode = .flood → t.lastDisp.disp = 2 ∨ t.lastDisp.disp = 3)

/-- The frame pipeline writes no configuration, and only sets the sticky bits (R39, R151). That it
leaves the response, the schedule and the parameters is the model's choice of those fields
(assumption logs 6, 2 and 1). -/
def Obligations.FramesWriteNoConfiguration : Prop :=
  ∀ (s t : State) (i : Instr) (p : PortId) (raw : Frame), anyFrame i = some (p, raw) →
    exec i s = .next t →
    t.enable = s.enable ∧ t.marker = s.marker ∧ t.adminDown = s.adminDown ∧
    t.exitCheckEn = s.exitCheckEn ∧ t.camIndex = s.camIndex ∧ t.ports = s.ports ∧
    t.response = s.response ∧ t.schedule = s.schedule ∧ t.params = s.params ∧
    (s.learnFail = true → t.learnFail = true) ∧ (s.malformed = true → t.malformed = true) ∧
    (s.oversize = true → t.oversize = true)

/-- Every egress channel only grows, whatever the step (R49; over a reset by R157, and the egress
link layer takes nothing off, assumption log 17). -/
def Obligations.EgressOnlyGrows : Prop :=
  ∀ (s t : State) (o : PortId), step s = .next t → portGet s.egress o <+: portGet t.egress o

/-- What the block does with a frame depends on its addresses and tag alone: two frames with equal
destination, source, tag presence and TCI leave equal states but for the bytes sent, and send to the
same ports. Ethertype and payload are opaque (R38, R67). -/
def Obligations.PayloadIsOpaque : Prop :=
  ∀ (s t t' : State) (i i' : Instr) (p : PortId) (raw raw' : Frame) (h h' : Header),
    forwardedFrame i = some (p, raw) → forwardedFrame i' = some (p, raw') →
    parseHeader s.marker raw = some h → parseHeader s.marker raw' = some h' →
    h'.dst = h.dst → h'.src = h.src → h'.tagged = h.tagged → h'.tci = h.tci →
    exec i s = .next t → exec i' s = .next t' →
    { t' with egress := t.egress } = t ∧
    ∀ o, (portGet t'.egress o).length = (portGet t.egress o).length
end

