-- ==== Sys2Proof/Laws/Arrays.lean ====
section
/-! SUPPORT. The laws of per-port arrays and of the list of all ports. -/

namespace Sys2Proof.Machine

@[simp] theorem portGet_portSet_same {α : Type} (v : PerPort α) (p : PortId) (x : α) :
    portGet (portSet v p x) p = x := by
  simp [portGet, portSet]

theorem portGet_portSet_other {α : Type} (v : PerPort α) {p q : PortId} (x : α) (h : p ≠ q) :
    portGet (portSet v p x) q = portGet v q := by
  have hn : p.toNat ≠ q.toNat := fun e => h (BitVec.eq_of_toNat_eq e)
  simp only [portGet, portSet]
  exact Vector.getElem_set_ne _ _ hn

theorem portGet_portSet {α : Type} (v : PerPort α) (p q : PortId) (x : α) :
    portGet (portSet v p x) q = if p = q then x else portGet v q := by
  by_cases h : p = q
  · subst h; simp
  · rw [portGet_portSet_other v x h, if_neg h]

@[simp] theorem portGet_replicate {α : Type} (x : α) (p : PortId) :
    portGet (Vector.replicate 32 x) p = x := by
  simp [portGet]

theorem portArray_ext {α : Type} {v w : PerPort α} (h : ∀ p, portGet v p = portGet w p) : v = w := by
  apply Vector.ext
  intro i hi
  have := h (BitVec.ofNat 5 i)
  simpa [portGet, Nat.mod_eq_of_lt hi] using this

theorem nPorts_pos (c : Params) : 0 < c.nPorts := Nat.succ_pos _

theorem nPorts_le (c : Params) : c.nPorts ≤ 32 := c.lastPort.isLt

theorem camEntries_pos (c : Params) : 0 < c.camEntries := Nat.succ_pos _

theorem maxFrameBytes_ge (c : Params) : 18 ≤ c.maxFrameBytes := Nat.le_add_left _ _

@[simp] theorem hasPort_eq_true (c : Params) (p : PortId) :
    c.hasPort p = true ↔ p.toNat < c.nPorts := by
  simp [Params.hasPort]

@[simp] theorem mem_allPorts (c : Params) (p : PortId) :
    p ∈ allPorts c ↔ p.toNat < c.nPorts := by
  simp only [allPorts, List.mem_map, List.mem_range]
  constructor
  · rintro ⟨k, hk, rfl⟩
    have := nPorts_le c
    simpa [Nat.mod_eq_of_lt (show k < 32 by omega)] using hk
  · intro h
    exact ⟨p.toNat, h, by simp⟩

theorem allPorts_ascending (c : Params) :
    (allPorts c).Pairwise (fun a b => a.toNat < b.toNat) := by
  have hle := nPorts_le c
  simp only [allPorts, List.pairwise_map]
  refine List.Pairwise.imp_of_mem ?_ List.pairwise_lt_range
  intro a b ha hb hab
  simp only [List.mem_range] at ha hb
  simpa [Nat.mod_eq_of_lt (show a < 32 by omega), Nat.mod_eq_of_lt (show b < 32 by omega)] using hab

theorem allPorts_nodup (c : Params) : (allPorts c).Nodup :=
  (allPorts_ascending c).imp fun h e => by subst e; exact Nat.lt_irrefl _ h

theorem length_allPorts (c : Params) : (allPorts c).length = c.nPorts := by simp [allPorts]

end Sys2Proof.Machine
end

