-- ==== Sys2Proof/Laws/State.lean ====
section
/-! SUPPORT. One lemma per field of `State` per update of `State`, each true by `rfl`, so that no
proof unfolds a record update. -/

namespace Sys2Proof.Machine

@[simp] theorem State.withEnable_params (s : State) (v : Bool) : (s.withEnable v).params = s.params := rfl
@[simp] theorem State.withEnable_enable (s : State) (v : Bool) : (s.withEnable v).enable = v := rfl
@[simp] theorem State.withEnable_learnFail (s : State) (v : Bool) : (s.withEnable v).learnFail = s.learnFail := rfl
@[simp] theorem State.withEnable_malformed (s : State) (v : Bool) : (s.withEnable v).malformed = s.malformed := rfl
@[simp] theorem State.withEnable_oversize (s : State) (v : Bool) : (s.withEnable v).oversize = s.oversize := rfl
@[simp] theorem State.withEnable_marker (s : State) (v : Bool) : (s.withEnable v).marker = s.marker := rfl
@[simp] theorem State.withEnable_adminDown (s : State) (v : Bool) : (s.withEnable v).adminDown = s.adminDown := rfl
@[simp] theorem State.withEnable_exitCheckEn (s : State) (v : Bool) : (s.withEnable v).exitCheckEn = s.exitCheckEn := rfl
@[simp] theorem State.withEnable_camIndex (s : State) (v : Bool) : (s.withEnable v).camIndex = s.camIndex := rfl
@[simp] theorem State.withEnable_lastDisp (s : State) (v : Bool) : (s.withEnable v).lastDisp = s.lastDisp := rfl
@[simp] theorem State.withEnable_rxCount (s : State) (v : Bool) : (s.withEnable v).rxCount = s.rxCount := rfl
@[simp] theorem State.withEnable_txCount (s : State) (v : Bool) : (s.withEnable v).txCount = s.txCount := rfl
@[simp] theorem State.withEnable_dropCount (s : State) (v : Bool) : (s.withEnable v).dropCount = s.dropCount := rfl
@[simp] theorem State.withEnable_learnFailCount (s : State) (v : Bool) : (s.withEnable v).learnFailCount = s.learnFailCount := rfl
@[simp] theorem State.withEnable_ports (s : State) (v : Bool) : (s.withEnable v).ports = s.ports := rfl
@[simp] theorem State.withEnable_cam (s : State) (v : Bool) : (s.withEnable v).cam = s.cam := rfl
@[simp] theorem State.withEnable_ingress (s : State) (v : Bool) : (s.withEnable v).ingress = s.ingress := rfl
@[simp] theorem State.withEnable_egress (s : State) (v : Bool) : (s.withEnable v).egress = s.egress := rfl
@[simp] theorem State.withEnable_response (s : State) (v : Bool) : (s.withEnable v).response = s.response := rfl
@[simp] theorem State.withEnable_schedule (s : State) (v : Bool) : (s.withEnable v).schedule = s.schedule := rfl

@[simp] theorem State.withLearnFail_params (s : State) (v : Bool) : (s.withLearnFail v).params = s.params := rfl
@[simp] theorem State.withLearnFail_enable (s : State) (v : Bool) : (s.withLearnFail v).enable = s.enable := rfl
@[simp] theorem State.withLearnFail_learnFail (s : State) (v : Bool) : (s.withLearnFail v).learnFail = v := rfl
@[simp] theorem State.withLearnFail_malformed (s : State) (v : Bool) : (s.withLearnFail v).malformed = s.malformed := rfl
@[simp] theorem State.withLearnFail_oversize (s : State) (v : Bool) : (s.withLearnFail v).oversize = s.oversize := rfl
@[simp] theorem State.withLearnFail_marker (s : State) (v : Bool) : (s.withLearnFail v).marker = s.marker := rfl
@[simp] theorem State.withLearnFail_adminDown (s : State) (v : Bool) : (s.withLearnFail v).adminDown = s.adminDown := rfl
@[simp] theorem State.withLearnFail_exitCheckEn (s : State) (v : Bool) : (s.withLearnFail v).exitCheckEn = s.exitCheckEn := rfl
@[simp] theorem State.withLearnFail_camIndex (s : State) (v : Bool) : (s.withLearnFail v).camIndex = s.camIndex := rfl
@[simp] theorem State.withLearnFail_lastDisp (s : State) (v : Bool) : (s.withLearnFail v).lastDisp = s.lastDisp := rfl
@[simp] theorem State.withLearnFail_rxCount (s : State) (v : Bool) : (s.withLearnFail v).rxCount = s.rxCount := rfl
@[simp] theorem State.withLearnFail_txCount (s : State) (v : Bool) : (s.withLearnFail v).txCount = s.txCount := rfl
@[simp] theorem State.withLearnFail_dropCount (s : State) (v : Bool) : (s.withLearnFail v).dropCount = s.dropCount := rfl
@[simp] theorem State.withLearnFail_learnFailCount (s : State) (v : Bool) : (s.withLearnFail v).learnFailCount = s.learnFailCount := rfl
@[simp] theorem State.withLearnFail_ports (s : State) (v : Bool) : (s.withLearnFail v).ports = s.ports := rfl
@[simp] theorem State.withLearnFail_cam (s : State) (v : Bool) : (s.withLearnFail v).cam = s.cam := rfl
@[simp] theorem State.withLearnFail_ingress (s : State) (v : Bool) : (s.withLearnFail v).ingress = s.ingress := rfl
@[simp] theorem State.withLearnFail_egress (s : State) (v : Bool) : (s.withLearnFail v).egress = s.egress := rfl
@[simp] theorem State.withLearnFail_response (s : State) (v : Bool) : (s.withLearnFail v).response = s.response := rfl
@[simp] theorem State.withLearnFail_schedule (s : State) (v : Bool) : (s.withLearnFail v).schedule = s.schedule := rfl

@[simp] theorem State.withMalformed_params (s : State) (v : Bool) : (s.withMalformed v).params = s.params := rfl
@[simp] theorem State.withMalformed_enable (s : State) (v : Bool) : (s.withMalformed v).enable = s.enable := rfl
@[simp] theorem State.withMalformed_learnFail (s : State) (v : Bool) : (s.withMalformed v).learnFail = s.learnFail := rfl
@[simp] theorem State.withMalformed_malformed (s : State) (v : Bool) : (s.withMalformed v).malformed = v := rfl
@[simp] theorem State.withMalformed_oversize (s : State) (v : Bool) : (s.withMalformed v).oversize = s.oversize := rfl
@[simp] theorem State.withMalformed_marker (s : State) (v : Bool) : (s.withMalformed v).marker = s.marker := rfl
@[simp] theorem State.withMalformed_adminDown (s : State) (v : Bool) : (s.withMalformed v).adminDown = s.adminDown := rfl
@[simp] theorem State.withMalformed_exitCheckEn (s : State) (v : Bool) : (s.withMalformed v).exitCheckEn = s.exitCheckEn := rfl
@[simp] theorem State.withMalformed_camIndex (s : State) (v : Bool) : (s.withMalformed v).camIndex = s.camIndex := rfl
@[simp] theorem State.withMalformed_lastDisp (s : State) (v : Bool) : (s.withMalformed v).lastDisp = s.lastDisp := rfl
@[simp] theorem State.withMalformed_rxCount (s : State) (v : Bool) : (s.withMalformed v).rxCount = s.rxCount := rfl
@[simp] theorem State.withMalformed_txCount (s : State) (v : Bool) : (s.withMalformed v).txCount = s.txCount := rfl
@[simp] theorem State.withMalformed_dropCount (s : State) (v : Bool) : (s.withMalformed v).dropCount = s.dropCount := rfl
@[simp] theorem State.withMalformed_learnFailCount (s : State) (v : Bool) : (s.withMalformed v).learnFailCount = s.learnFailCount := rfl
@[simp] theorem State.withMalformed_ports (s : State) (v : Bool) : (s.withMalformed v).ports = s.ports := rfl
@[simp] theorem State.withMalformed_cam (s : State) (v : Bool) : (s.withMalformed v).cam = s.cam := rfl
@[simp] theorem State.withMalformed_ingress (s : State) (v : Bool) : (s.withMalformed v).ingress = s.ingress := rfl
@[simp] theorem State.withMalformed_egress (s : State) (v : Bool) : (s.withMalformed v).egress = s.egress := rfl
@[simp] theorem State.withMalformed_response (s : State) (v : Bool) : (s.withMalformed v).response = s.response := rfl
@[simp] theorem State.withMalformed_schedule (s : State) (v : Bool) : (s.withMalformed v).schedule = s.schedule := rfl

@[simp] theorem State.withOversize_params (s : State) (v : Bool) : (s.withOversize v).params = s.params := rfl
@[simp] theorem State.withOversize_enable (s : State) (v : Bool) : (s.withOversize v).enable = s.enable := rfl
@[simp] theorem State.withOversize_learnFail (s : State) (v : Bool) : (s.withOversize v).learnFail = s.learnFail := rfl
@[simp] theorem State.withOversize_malformed (s : State) (v : Bool) : (s.withOversize v).malformed = s.malformed := rfl
@[simp] theorem State.withOversize_oversize (s : State) (v : Bool) : (s.withOversize v).oversize = v := rfl
@[simp] theorem State.withOversize_marker (s : State) (v : Bool) : (s.withOversize v).marker = s.marker := rfl
@[simp] theorem State.withOversize_adminDown (s : State) (v : Bool) : (s.withOversize v).adminDown = s.adminDown := rfl
@[simp] theorem State.withOversize_exitCheckEn (s : State) (v : Bool) : (s.withOversize v).exitCheckEn = s.exitCheckEn := rfl
@[simp] theorem State.withOversize_camIndex (s : State) (v : Bool) : (s.withOversize v).camIndex = s.camIndex := rfl
@[simp] theorem State.withOversize_lastDisp (s : State) (v : Bool) : (s.withOversize v).lastDisp = s.lastDisp := rfl
@[simp] theorem State.withOversize_rxCount (s : State) (v : Bool) : (s.withOversize v).rxCount = s.rxCount := rfl
@[simp] theorem State.withOversize_txCount (s : State) (v : Bool) : (s.withOversize v).txCount = s.txCount := rfl
@[simp] theorem State.withOversize_dropCount (s : State) (v : Bool) : (s.withOversize v).dropCount = s.dropCount := rfl
@[simp] theorem State.withOversize_learnFailCount (s : State) (v : Bool) : (s.withOversize v).learnFailCount = s.learnFailCount := rfl
@[simp] theorem State.withOversize_ports (s : State) (v : Bool) : (s.withOversize v).ports = s.ports := rfl
@[simp] theorem State.withOversize_cam (s : State) (v : Bool) : (s.withOversize v).cam = s.cam := rfl
@[simp] theorem State.withOversize_ingress (s : State) (v : Bool) : (s.withOversize v).ingress = s.ingress := rfl
@[simp] theorem State.withOversize_egress (s : State) (v : Bool) : (s.withOversize v).egress = s.egress := rfl
@[simp] theorem State.withOversize_response (s : State) (v : Bool) : (s.withOversize v).response = s.response := rfl
@[simp] theorem State.withOversize_schedule (s : State) (v : Bool) : (s.withOversize v).schedule = s.schedule := rfl

@[simp] theorem State.withMarker_params (s : State) (v : BitVec 16) : (s.withMarker v).params = s.params := rfl
@[simp] theorem State.withMarker_enable (s : State) (v : BitVec 16) : (s.withMarker v).enable = s.enable := rfl
@[simp] theorem State.withMarker_learnFail (s : State) (v : BitVec 16) : (s.withMarker v).learnFail = s.learnFail := rfl
@[simp] theorem State.withMarker_malformed (s : State) (v : BitVec 16) : (s.withMarker v).malformed = s.malformed := rfl
@[simp] theorem State.withMarker_oversize (s : State) (v : BitVec 16) : (s.withMarker v).oversize = s.oversize := rfl
@[simp] theorem State.withMarker_marker (s : State) (v : BitVec 16) : (s.withMarker v).marker = v := rfl
@[simp] theorem State.withMarker_adminDown (s : State) (v : BitVec 16) : (s.withMarker v).adminDown = s.adminDown := rfl
@[simp] theorem State.withMarker_exitCheckEn (s : State) (v : BitVec 16) : (s.withMarker v).exitCheckEn = s.exitCheckEn := rfl
@[simp] theorem State.withMarker_camIndex (s : State) (v : BitVec 16) : (s.withMarker v).camIndex = s.camIndex := rfl
@[simp] theorem State.withMarker_lastDisp (s : State) (v : BitVec 16) : (s.withMarker v).lastDisp = s.lastDisp := rfl
@[simp] theorem State.withMarker_rxCount (s : State) (v : BitVec 16) : (s.withMarker v).rxCount = s.rxCount := rfl
@[simp] theorem State.withMarker_txCount (s : State) (v : BitVec 16) : (s.withMarker v).txCount = s.txCount := rfl
@[simp] theorem State.withMarker_dropCount (s : State) (v : BitVec 16) : (s.withMarker v).dropCount = s.dropCount := rfl
@[simp] theorem State.withMarker_learnFailCount (s : State) (v : BitVec 16) : (s.withMarker v).learnFailCount = s.learnFailCount := rfl
@[simp] theorem State.withMarker_ports (s : State) (v : BitVec 16) : (s.withMarker v).ports = s.ports := rfl
@[simp] theorem State.withMarker_cam (s : State) (v : BitVec 16) : (s.withMarker v).cam = s.cam := rfl
@[simp] theorem State.withMarker_ingress (s : State) (v : BitVec 16) : (s.withMarker v).ingress = s.ingress := rfl
@[simp] theorem State.withMarker_egress (s : State) (v : BitVec 16) : (s.withMarker v).egress = s.egress := rfl
@[simp] theorem State.withMarker_response (s : State) (v : BitVec 16) : (s.withMarker v).response = s.response := rfl
@[simp] theorem State.withMarker_schedule (s : State) (v : BitVec 16) : (s.withMarker v).schedule = s.schedule := rfl

@[simp] theorem State.withAdminDown_params (s : State) (v : Word) : (s.withAdminDown v).params = s.params := rfl
@[simp] theorem State.withAdminDown_enable (s : State) (v : Word) : (s.withAdminDown v).enable = s.enable := rfl
@[simp] theorem State.withAdminDown_learnFail (s : State) (v : Word) : (s.withAdminDown v).learnFail = s.learnFail := rfl
@[simp] theorem State.withAdminDown_malformed (s : State) (v : Word) : (s.withAdminDown v).malformed = s.malformed := rfl
@[simp] theorem State.withAdminDown_oversize (s : State) (v : Word) : (s.withAdminDown v).oversize = s.oversize := rfl
@[simp] theorem State.withAdminDown_marker (s : State) (v : Word) : (s.withAdminDown v).marker = s.marker := rfl
@[simp] theorem State.withAdminDown_adminDown (s : State) (v : Word) : (s.withAdminDown v).adminDown = v := rfl
@[simp] theorem State.withAdminDown_exitCheckEn (s : State) (v : Word) : (s.withAdminDown v).exitCheckEn = s.exitCheckEn := rfl
@[simp] theorem State.withAdminDown_camIndex (s : State) (v : Word) : (s.withAdminDown v).camIndex = s.camIndex := rfl
@[simp] theorem State.withAdminDown_lastDisp (s : State) (v : Word) : (s.withAdminDown v).lastDisp = s.lastDisp := rfl
@[simp] theorem State.withAdminDown_rxCount (s : State) (v : Word) : (s.withAdminDown v).rxCount = s.rxCount := rfl
@[simp] theorem State.withAdminDown_txCount (s : State) (v : Word) : (s.withAdminDown v).txCount = s.txCount := rfl
@[simp] theorem State.withAdminDown_dropCount (s : State) (v : Word) : (s.withAdminDown v).dropCount = s.dropCount := rfl
@[simp] theorem State.withAdminDown_learnFailCount (s : State) (v : Word) : (s.withAdminDown v).learnFailCount = s.learnFailCount := rfl
@[simp] theorem State.withAdminDown_ports (s : State) (v : Word) : (s.withAdminDown v).ports = s.ports := rfl
@[simp] theorem State.withAdminDown_cam (s : State) (v : Word) : (s.withAdminDown v).cam = s.cam := rfl
@[simp] theorem State.withAdminDown_ingress (s : State) (v : Word) : (s.withAdminDown v).ingress = s.ingress := rfl
@[simp] theorem State.withAdminDown_egress (s : State) (v : Word) : (s.withAdminDown v).egress = s.egress := rfl
@[simp] theorem State.withAdminDown_response (s : State) (v : Word) : (s.withAdminDown v).response = s.response := rfl
@[simp] theorem State.withAdminDown_schedule (s : State) (v : Word) : (s.withAdminDown v).schedule = s.schedule := rfl

@[simp] theorem State.withExitCheckEn_params (s : State) (v : Bool) : (s.withExitCheckEn v).params = s.params := rfl
@[simp] theorem State.withExitCheckEn_enable (s : State) (v : Bool) : (s.withExitCheckEn v).enable = s.enable := rfl
@[simp] theorem State.withExitCheckEn_learnFail (s : State) (v : Bool) : (s.withExitCheckEn v).learnFail = s.learnFail := rfl
@[simp] theorem State.withExitCheckEn_malformed (s : State) (v : Bool) : (s.withExitCheckEn v).malformed = s.malformed := rfl
@[simp] theorem State.withExitCheckEn_oversize (s : State) (v : Bool) : (s.withExitCheckEn v).oversize = s.oversize := rfl
@[simp] theorem State.withExitCheckEn_marker (s : State) (v : Bool) : (s.withExitCheckEn v).marker = s.marker := rfl
@[simp] theorem State.withExitCheckEn_adminDown (s : State) (v : Bool) : (s.withExitCheckEn v).adminDown = s.adminDown := rfl
@[simp] theorem State.withExitCheckEn_exitCheckEn (s : State) (v : Bool) : (s.withExitCheckEn v).exitCheckEn = v := rfl
@[simp] theorem State.withExitCheckEn_camIndex (s : State) (v : Bool) : (s.withExitCheckEn v).camIndex = s.camIndex := rfl
@[simp] theorem State.withExitCheckEn_lastDisp (s : State) (v : Bool) : (s.withExitCheckEn v).lastDisp = s.lastDisp := rfl
@[simp] theorem State.withExitCheckEn_rxCount (s : State) (v : Bool) : (s.withExitCheckEn v).rxCount = s.rxCount := rfl
@[simp] theorem State.withExitCheckEn_txCount (s : State) (v : Bool) : (s.withExitCheckEn v).txCount = s.txCount := rfl
@[simp] theorem State.withExitCheckEn_dropCount (s : State) (v : Bool) : (s.withExitCheckEn v).dropCount = s.dropCount := rfl
@[simp] theorem State.withExitCheckEn_learnFailCount (s : State) (v : Bool) : (s.withExitCheckEn v).learnFailCount = s.learnFailCount := rfl
@[simp] theorem State.withExitCheckEn_ports (s : State) (v : Bool) : (s.withExitCheckEn v).ports = s.ports := rfl
@[simp] theorem State.withExitCheckEn_cam (s : State) (v : Bool) : (s.withExitCheckEn v).cam = s.cam := rfl
@[simp] theorem State.withExitCheckEn_ingress (s : State) (v : Bool) : (s.withExitCheckEn v).ingress = s.ingress := rfl
@[simp] theorem State.withExitCheckEn_egress (s : State) (v : Bool) : (s.withExitCheckEn v).egress = s.egress := rfl
@[simp] theorem State.withExitCheckEn_response (s : State) (v : Bool) : (s.withExitCheckEn v).response = s.response := rfl
@[simp] theorem State.withExitCheckEn_schedule (s : State) (v : Bool) : (s.withExitCheckEn v).schedule = s.schedule := rfl

@[simp] theorem State.withCamIndex_params (s : State) (v : BitVec 16) : (s.withCamIndex v).params = s.params := rfl
@[simp] theorem State.withCamIndex_enable (s : State) (v : BitVec 16) : (s.withCamIndex v).enable = s.enable := rfl
@[simp] theorem State.withCamIndex_learnFail (s : State) (v : BitVec 16) : (s.withCamIndex v).learnFail = s.learnFail := rfl
@[simp] theorem State.withCamIndex_malformed (s : State) (v : BitVec 16) : (s.withCamIndex v).malformed = s.malformed := rfl
@[simp] theorem State.withCamIndex_oversize (s : State) (v : BitVec 16) : (s.withCamIndex v).oversize = s.oversize := rfl
@[simp] theorem State.withCamIndex_marker (s : State) (v : BitVec 16) : (s.withCamIndex v).marker = s.marker := rfl
@[simp] theorem State.withCamIndex_adminDown (s : State) (v : BitVec 16) : (s.withCamIndex v).adminDown = s.adminDown := rfl
@[simp] theorem State.withCamIndex_exitCheckEn (s : State) (v : BitVec 16) : (s.withCamIndex v).exitCheckEn = s.exitCheckEn := rfl
@[simp] theorem State.withCamIndex_camIndex (s : State) (v : BitVec 16) : (s.withCamIndex v).camIndex = v := rfl
@[simp] theorem State.withCamIndex_lastDisp (s : State) (v : BitVec 16) : (s.withCamIndex v).lastDisp = s.lastDisp := rfl
@[simp] theorem State.withCamIndex_rxCount (s : State) (v : BitVec 16) : (s.withCamIndex v).rxCount = s.rxCount := rfl
@[simp] theorem State.withCamIndex_txCount (s : State) (v : BitVec 16) : (s.withCamIndex v).txCount = s.txCount := rfl
@[simp] theorem State.withCamIndex_dropCount (s : State) (v : BitVec 16) : (s.withCamIndex v).dropCount = s.dropCount := rfl
@[simp] theorem State.withCamIndex_learnFailCount (s : State) (v : BitVec 16) : (s.withCamIndex v).learnFailCount = s.learnFailCount := rfl
@[simp] theorem State.withCamIndex_ports (s : State) (v : BitVec 16) : (s.withCamIndex v).ports = s.ports := rfl
@[simp] theorem State.withCamIndex_cam (s : State) (v : BitVec 16) : (s.withCamIndex v).cam = s.cam := rfl
@[simp] theorem State.withCamIndex_ingress (s : State) (v : BitVec 16) : (s.withCamIndex v).ingress = s.ingress := rfl
@[simp] theorem State.withCamIndex_egress (s : State) (v : BitVec 16) : (s.withCamIndex v).egress = s.egress := rfl
@[simp] theorem State.withCamIndex_response (s : State) (v : BitVec 16) : (s.withCamIndex v).response = s.response := rfl
@[simp] theorem State.withCamIndex_schedule (s : State) (v : BitVec 16) : (s.withCamIndex v).schedule = s.schedule := rfl

@[simp] theorem State.withLastDisp_params (s : State) (v : LastDisp) : (s.withLastDisp v).params = s.params := rfl
@[simp] theorem State.withLastDisp_enable (s : State) (v : LastDisp) : (s.withLastDisp v).enable = s.enable := rfl
@[simp] theorem State.withLastDisp_learnFail (s : State) (v : LastDisp) : (s.withLastDisp v).learnFail = s.learnFail := rfl
@[simp] theorem State.withLastDisp_malformed (s : State) (v : LastDisp) : (s.withLastDisp v).malformed = s.malformed := rfl
@[simp] theorem State.withLastDisp_oversize (s : State) (v : LastDisp) : (s.withLastDisp v).oversize = s.oversize := rfl
@[simp] theorem State.withLastDisp_marker (s : State) (v : LastDisp) : (s.withLastDisp v).marker = s.marker := rfl
@[simp] theorem State.withLastDisp_adminDown (s : State) (v : LastDisp) : (s.withLastDisp v).adminDown = s.adminDown := rfl
@[simp] theorem State.withLastDisp_exitCheckEn (s : State) (v : LastDisp) : (s.withLastDisp v).exitCheckEn = s.exitCheckEn := rfl
@[simp] theorem State.withLastDisp_camIndex (s : State) (v : LastDisp) : (s.withLastDisp v).camIndex = s.camIndex := rfl
@[simp] theorem State.withLastDisp_lastDisp (s : State) (v : LastDisp) : (s.withLastDisp v).lastDisp = v := rfl
@[simp] theorem State.withLastDisp_rxCount (s : State) (v : LastDisp) : (s.withLastDisp v).rxCount = s.rxCount := rfl
@[simp] theorem State.withLastDisp_txCount (s : State) (v : LastDisp) : (s.withLastDisp v).txCount = s.txCount := rfl
@[simp] theorem State.withLastDisp_dropCount (s : State) (v : LastDisp) : (s.withLastDisp v).dropCount = s.dropCount := rfl
@[simp] theorem State.withLastDisp_learnFailCount (s : State) (v : LastDisp) : (s.withLastDisp v).learnFailCount = s.learnFailCount := rfl
@[simp] theorem State.withLastDisp_ports (s : State) (v : LastDisp) : (s.withLastDisp v).ports = s.ports := rfl
@[simp] theorem State.withLastDisp_cam (s : State) (v : LastDisp) : (s.withLastDisp v).cam = s.cam := rfl
@[simp] theorem State.withLastDisp_ingress (s : State) (v : LastDisp) : (s.withLastDisp v).ingress = s.ingress := rfl
@[simp] theorem State.withLastDisp_egress (s : State) (v : LastDisp) : (s.withLastDisp v).egress = s.egress := rfl
@[simp] theorem State.withLastDisp_response (s : State) (v : LastDisp) : (s.withLastDisp v).response = s.response := rfl
@[simp] theorem State.withLastDisp_schedule (s : State) (v : LastDisp) : (s.withLastDisp v).schedule = s.schedule := rfl

@[simp] theorem State.withRxCount_params (s : State) (v : Word) : (s.withRxCount v).params = s.params := rfl
@[simp] theorem State.withRxCount_enable (s : State) (v : Word) : (s.withRxCount v).enable = s.enable := rfl
@[simp] theorem State.withRxCount_learnFail (s : State) (v : Word) : (s.withRxCount v).learnFail = s.learnFail := rfl
@[simp] theorem State.withRxCount_malformed (s : State) (v : Word) : (s.withRxCount v).malformed = s.malformed := rfl
@[simp] theorem State.withRxCount_oversize (s : State) (v : Word) : (s.withRxCount v).oversize = s.oversize := rfl
@[simp] theorem State.withRxCount_marker (s : State) (v : Word) : (s.withRxCount v).marker = s.marker := rfl
@[simp] theorem State.withRxCount_adminDown (s : State) (v : Word) : (s.withRxCount v).adminDown = s.adminDown := rfl
@[simp] theorem State.withRxCount_exitCheckEn (s : State) (v : Word) : (s.withRxCount v).exitCheckEn = s.exitCheckEn := rfl
@[simp] theorem State.withRxCount_camIndex (s : State) (v : Word) : (s.withRxCount v).camIndex = s.camIndex := rfl
@[simp] theorem State.withRxCount_lastDisp (s : State) (v : Word) : (s.withRxCount v).lastDisp = s.lastDisp := rfl
@[simp] theorem State.withRxCount_rxCount (s : State) (v : Word) : (s.withRxCount v).rxCount = v := rfl
@[simp] theorem State.withRxCount_txCount (s : State) (v : Word) : (s.withRxCount v).txCount = s.txCount := rfl
@[simp] theorem State.withRxCount_dropCount (s : State) (v : Word) : (s.withRxCount v).dropCount = s.dropCount := rfl
@[simp] theorem State.withRxCount_learnFailCount (s : State) (v : Word) : (s.withRxCount v).learnFailCount = s.learnFailCount := rfl
@[simp] theorem State.withRxCount_ports (s : State) (v : Word) : (s.withRxCount v).ports = s.ports := rfl
@[simp] theorem State.withRxCount_cam (s : State) (v : Word) : (s.withRxCount v).cam = s.cam := rfl
@[simp] theorem State.withRxCount_ingress (s : State) (v : Word) : (s.withRxCount v).ingress = s.ingress := rfl
@[simp] theorem State.withRxCount_egress (s : State) (v : Word) : (s.withRxCount v).egress = s.egress := rfl
@[simp] theorem State.withRxCount_response (s : State) (v : Word) : (s.withRxCount v).response = s.response := rfl
@[simp] theorem State.withRxCount_schedule (s : State) (v : Word) : (s.withRxCount v).schedule = s.schedule := rfl

@[simp] theorem State.withTxCount_params (s : State) (v : Word) : (s.withTxCount v).params = s.params := rfl
@[simp] theorem State.withTxCount_enable (s : State) (v : Word) : (s.withTxCount v).enable = s.enable := rfl
@[simp] theorem State.withTxCount_learnFail (s : State) (v : Word) : (s.withTxCount v).learnFail = s.learnFail := rfl
@[simp] theorem State.withTxCount_malformed (s : State) (v : Word) : (s.withTxCount v).malformed = s.malformed := rfl
@[simp] theorem State.withTxCount_oversize (s : State) (v : Word) : (s.withTxCount v).oversize = s.oversize := rfl
@[simp] theorem State.withTxCount_marker (s : State) (v : Word) : (s.withTxCount v).marker = s.marker := rfl
@[simp] theorem State.withTxCount_adminDown (s : State) (v : Word) : (s.withTxCount v).adminDown = s.adminDown := rfl
@[simp] theorem State.withTxCount_exitCheckEn (s : State) (v : Word) : (s.withTxCount v).exitCheckEn = s.exitCheckEn := rfl
@[simp] theorem State.withTxCount_camIndex (s : State) (v : Word) : (s.withTxCount v).camIndex = s.camIndex := rfl
@[simp] theorem State.withTxCount_lastDisp (s : State) (v : Word) : (s.withTxCount v).lastDisp = s.lastDisp := rfl
@[simp] theorem State.withTxCount_rxCount (s : State) (v : Word) : (s.withTxCount v).rxCount = s.rxCount := rfl
@[simp] theorem State.withTxCount_txCount (s : State) (v : Word) : (s.withTxCount v).txCount = v := rfl
@[simp] theorem State.withTxCount_dropCount (s : State) (v : Word) : (s.withTxCount v).dropCount = s.dropCount := rfl
@[simp] theorem State.withTxCount_learnFailCount (s : State) (v : Word) : (s.withTxCount v).learnFailCount = s.learnFailCount := rfl
@[simp] theorem State.withTxCount_ports (s : State) (v : Word) : (s.withTxCount v).ports = s.ports := rfl
@[simp] theorem State.withTxCount_cam (s : State) (v : Word) : (s.withTxCount v).cam = s.cam := rfl
@[simp] theorem State.withTxCount_ingress (s : State) (v : Word) : (s.withTxCount v).ingress = s.ingress := rfl
@[simp] theorem State.withTxCount_egress (s : State) (v : Word) : (s.withTxCount v).egress = s.egress := rfl
@[simp] theorem State.withTxCount_response (s : State) (v : Word) : (s.withTxCount v).response = s.response := rfl
@[simp] theorem State.withTxCount_schedule (s : State) (v : Word) : (s.withTxCount v).schedule = s.schedule := rfl

@[simp] theorem State.withDropCount_params (s : State) (v : Word) : (s.withDropCount v).params = s.params := rfl
@[simp] theorem State.withDropCount_enable (s : State) (v : Word) : (s.withDropCount v).enable = s.enable := rfl
@[simp] theorem State.withDropCount_learnFail (s : State) (v : Word) : (s.withDropCount v).learnFail = s.learnFail := rfl
@[simp] theorem State.withDropCount_malformed (s : State) (v : Word) : (s.withDropCount v).malformed = s.malformed := rfl
@[simp] theorem State.withDropCount_oversize (s : State) (v : Word) : (s.withDropCount v).oversize = s.oversize := rfl
@[simp] theorem State.withDropCount_marker (s : State) (v : Word) : (s.withDropCount v).marker = s.marker := rfl
@[simp] theorem State.withDropCount_adminDown (s : State) (v : Word) : (s.withDropCount v).adminDown = s.adminDown := rfl
@[simp] theorem State.withDropCount_exitCheckEn (s : State) (v : Word) : (s.withDropCount v).exitCheckEn = s.exitCheckEn := rfl
@[simp] theorem State.withDropCount_camIndex (s : State) (v : Word) : (s.withDropCount v).camIndex = s.camIndex := rfl
@[simp] theorem State.withDropCount_lastDisp (s : State) (v : Word) : (s.withDropCount v).lastDisp = s.lastDisp := rfl
@[simp] theorem State.withDropCount_rxCount (s : State) (v : Word) : (s.withDropCount v).rxCount = s.rxCount := rfl
@[simp] theorem State.withDropCount_txCount (s : State) (v : Word) : (s.withDropCount v).txCount = s.txCount := rfl
@[simp] theorem State.withDropCount_dropCount (s : State) (v : Word) : (s.withDropCount v).dropCount = v := rfl
@[simp] theorem State.withDropCount_learnFailCount (s : State) (v : Word) : (s.withDropCount v).learnFailCount = s.learnFailCount := rfl
@[simp] theorem State.withDropCount_ports (s : State) (v : Word) : (s.withDropCount v).ports = s.ports := rfl
@[simp] theorem State.withDropCount_cam (s : State) (v : Word) : (s.withDropCount v).cam = s.cam := rfl
@[simp] theorem State.withDropCount_ingress (s : State) (v : Word) : (s.withDropCount v).ingress = s.ingress := rfl
@[simp] theorem State.withDropCount_egress (s : State) (v : Word) : (s.withDropCount v).egress = s.egress := rfl
@[simp] theorem State.withDropCount_response (s : State) (v : Word) : (s.withDropCount v).response = s.response := rfl
@[simp] theorem State.withDropCount_schedule (s : State) (v : Word) : (s.withDropCount v).schedule = s.schedule := rfl

@[simp] theorem State.withLearnFailCount_params (s : State) (v : Word) : (s.withLearnFailCount v).params = s.params := rfl
@[simp] theorem State.withLearnFailCount_enable (s : State) (v : Word) : (s.withLearnFailCount v).enable = s.enable := rfl
@[simp] theorem State.withLearnFailCount_learnFail (s : State) (v : Word) : (s.withLearnFailCount v).learnFail = s.learnFail := rfl
@[simp] theorem State.withLearnFailCount_malformed (s : State) (v : Word) : (s.withLearnFailCount v).malformed = s.malformed := rfl
@[simp] theorem State.withLearnFailCount_oversize (s : State) (v : Word) : (s.withLearnFailCount v).oversize = s.oversize := rfl
@[simp] theorem State.withLearnFailCount_marker (s : State) (v : Word) : (s.withLearnFailCount v).marker = s.marker := rfl
@[simp] theorem State.withLearnFailCount_adminDown (s : State) (v : Word) : (s.withLearnFailCount v).adminDown = s.adminDown := rfl
@[simp] theorem State.withLearnFailCount_exitCheckEn (s : State) (v : Word) : (s.withLearnFailCount v).exitCheckEn = s.exitCheckEn := rfl
@[simp] theorem State.withLearnFailCount_camIndex (s : State) (v : Word) : (s.withLearnFailCount v).camIndex = s.camIndex := rfl
@[simp] theorem State.withLearnFailCount_lastDisp (s : State) (v : Word) : (s.withLearnFailCount v).lastDisp = s.lastDisp := rfl
@[simp] theorem State.withLearnFailCount_rxCount (s : State) (v : Word) : (s.withLearnFailCount v).rxCount = s.rxCount := rfl
@[simp] theorem State.withLearnFailCount_txCount (s : State) (v : Word) : (s.withLearnFailCount v).txCount = s.txCount := rfl
@[simp] theorem State.withLearnFailCount_dropCount (s : State) (v : Word) : (s.withLearnFailCount v).dropCount = s.dropCount := rfl
@[simp] theorem State.withLearnFailCount_learnFailCount (s : State) (v : Word) : (s.withLearnFailCount v).learnFailCount = v := rfl
@[simp] theorem State.withLearnFailCount_ports (s : State) (v : Word) : (s.withLearnFailCount v).ports = s.ports := rfl
@[simp] theorem State.withLearnFailCount_cam (s : State) (v : Word) : (s.withLearnFailCount v).cam = s.cam := rfl
@[simp] theorem State.withLearnFailCount_ingress (s : State) (v : Word) : (s.withLearnFailCount v).ingress = s.ingress := rfl
@[simp] theorem State.withLearnFailCount_egress (s : State) (v : Word) : (s.withLearnFailCount v).egress = s.egress := rfl
@[simp] theorem State.withLearnFailCount_response (s : State) (v : Word) : (s.withLearnFailCount v).response = s.response := rfl
@[simp] theorem State.withLearnFailCount_schedule (s : State) (v : Word) : (s.withLearnFailCount v).schedule = s.schedule := rfl

@[simp] theorem State.withPorts_params (s : State) (v : PerPort PortCfg) : (s.withPorts v).params = s.params := rfl
@[simp] theorem State.withPorts_enable (s : State) (v : PerPort PortCfg) : (s.withPorts v).enable = s.enable := rfl
@[simp] theorem State.withPorts_learnFail (s : State) (v : PerPort PortCfg) : (s.withPorts v).learnFail = s.learnFail := rfl
@[simp] theorem State.withPorts_malformed (s : State) (v : PerPort PortCfg) : (s.withPorts v).malformed = s.malformed := rfl
@[simp] theorem State.withPorts_oversize (s : State) (v : PerPort PortCfg) : (s.withPorts v).oversize = s.oversize := rfl
@[simp] theorem State.withPorts_marker (s : State) (v : PerPort PortCfg) : (s.withPorts v).marker = s.marker := rfl
@[simp] theorem State.withPorts_adminDown (s : State) (v : PerPort PortCfg) : (s.withPorts v).adminDown = s.adminDown := rfl
@[simp] theorem State.withPorts_exitCheckEn (s : State) (v : PerPort PortCfg) : (s.withPorts v).exitCheckEn = s.exitCheckEn := rfl
@[simp] theorem State.withPorts_camIndex (s : State) (v : PerPort PortCfg) : (s.withPorts v).camIndex = s.camIndex := rfl
@[simp] theorem State.withPorts_lastDisp (s : State) (v : PerPort PortCfg) : (s.withPorts v).lastDisp = s.lastDisp := rfl
@[simp] theorem State.withPorts_rxCount (s : State) (v : PerPort PortCfg) : (s.withPorts v).rxCount = s.rxCount := rfl
@[simp] theorem State.withPorts_txCount (s : State) (v : PerPort PortCfg) : (s.withPorts v).txCount = s.txCount := rfl
@[simp] theorem State.withPorts_dropCount (s : State) (v : PerPort PortCfg) : (s.withPorts v).dropCount = s.dropCount := rfl
@[simp] theorem State.withPorts_learnFailCount (s : State) (v : PerPort PortCfg) : (s.withPorts v).learnFailCount = s.learnFailCount := rfl
@[simp] theorem State.withPorts_ports (s : State) (v : PerPort PortCfg) : (s.withPorts v).ports = v := rfl
@[simp] theorem State.withPorts_cam (s : State) (v : PerPort PortCfg) : (s.withPorts v).cam = s.cam := rfl
@[simp] theorem State.withPorts_ingress (s : State) (v : PerPort PortCfg) : (s.withPorts v).ingress = s.ingress := rfl
@[simp] theorem State.withPorts_egress (s : State) (v : PerPort PortCfg) : (s.withPorts v).egress = s.egress := rfl
@[simp] theorem State.withPorts_response (s : State) (v : PerPort PortCfg) : (s.withPorts v).response = s.response := rfl
@[simp] theorem State.withPorts_schedule (s : State) (v : PerPort PortCfg) : (s.withPorts v).schedule = s.schedule := rfl

@[simp] theorem State.withCam_params (s : State) (v : Cam) : (s.withCam v).params = s.params := rfl
@[simp] theorem State.withCam_enable (s : State) (v : Cam) : (s.withCam v).enable = s.enable := rfl
@[simp] theorem State.withCam_learnFail (s : State) (v : Cam) : (s.withCam v).learnFail = s.learnFail := rfl
@[simp] theorem State.withCam_malformed (s : State) (v : Cam) : (s.withCam v).malformed = s.malformed := rfl
@[simp] theorem State.withCam_oversize (s : State) (v : Cam) : (s.withCam v).oversize = s.oversize := rfl
@[simp] theorem State.withCam_marker (s : State) (v : Cam) : (s.withCam v).marker = s.marker := rfl
@[simp] theorem State.withCam_adminDown (s : State) (v : Cam) : (s.withCam v).adminDown = s.adminDown := rfl
@[simp] theorem State.withCam_exitCheckEn (s : State) (v : Cam) : (s.withCam v).exitCheckEn = s.exitCheckEn := rfl
@[simp] theorem State.withCam_camIndex (s : State) (v : Cam) : (s.withCam v).camIndex = s.camIndex := rfl
@[simp] theorem State.withCam_lastDisp (s : State) (v : Cam) : (s.withCam v).lastDisp = s.lastDisp := rfl
@[simp] theorem State.withCam_rxCount (s : State) (v : Cam) : (s.withCam v).rxCount = s.rxCount := rfl
@[simp] theorem State.withCam_txCount (s : State) (v : Cam) : (s.withCam v).txCount = s.txCount := rfl
@[simp] theorem State.withCam_dropCount (s : State) (v : Cam) : (s.withCam v).dropCount = s.dropCount := rfl
@[simp] theorem State.withCam_learnFailCount (s : State) (v : Cam) : (s.withCam v).learnFailCount = s.learnFailCount := rfl
@[simp] theorem State.withCam_ports (s : State) (v : Cam) : (s.withCam v).ports = s.ports := rfl
@[simp] theorem State.withCam_cam (s : State) (v : Cam) : (s.withCam v).cam = v := rfl
@[simp] theorem State.withCam_ingress (s : State) (v : Cam) : (s.withCam v).ingress = s.ingress := rfl
@[simp] theorem State.withCam_egress (s : State) (v : Cam) : (s.withCam v).egress = s.egress := rfl
@[simp] theorem State.withCam_response (s : State) (v : Cam) : (s.withCam v).response = s.response := rfl
@[simp] theorem State.withCam_schedule (s : State) (v : Cam) : (s.withCam v).schedule = s.schedule := rfl

@[simp] theorem State.withIngress_params (s : State) (v : PerPort (List Frame)) : (s.withIngress v).params = s.params := rfl
@[simp] theorem State.withIngress_enable (s : State) (v : PerPort (List Frame)) : (s.withIngress v).enable = s.enable := rfl
@[simp] theorem State.withIngress_learnFail (s : State) (v : PerPort (List Frame)) : (s.withIngress v).learnFail = s.learnFail := rfl
@[simp] theorem State.withIngress_malformed (s : State) (v : PerPort (List Frame)) : (s.withIngress v).malformed = s.malformed := rfl
@[simp] theorem State.withIngress_oversize (s : State) (v : PerPort (List Frame)) : (s.withIngress v).oversize = s.oversize := rfl
@[simp] theorem State.withIngress_marker (s : State) (v : PerPort (List Frame)) : (s.withIngress v).marker = s.marker := rfl
@[simp] theorem State.withIngress_adminDown (s : State) (v : PerPort (List Frame)) : (s.withIngress v).adminDown = s.adminDown := rfl
@[simp] theorem State.withIngress_exitCheckEn (s : State) (v : PerPort (List Frame)) : (s.withIngress v).exitCheckEn = s.exitCheckEn := rfl
@[simp] theorem State.withIngress_camIndex (s : State) (v : PerPort (List Frame)) : (s.withIngress v).camIndex = s.camIndex := rfl
@[simp] theorem State.withIngress_lastDisp (s : State) (v : PerPort (List Frame)) : (s.withIngress v).lastDisp = s.lastDisp := rfl
@[simp] theorem State.withIngress_rxCount (s : State) (v : PerPort (List Frame)) : (s.withIngress v).rxCount = s.rxCount := rfl
@[simp] theorem State.withIngress_txCount (s : State) (v : PerPort (List Frame)) : (s.withIngress v).txCount = s.txCount := rfl
@[simp] theorem State.withIngress_dropCount (s : State) (v : PerPort (List Frame)) : (s.withIngress v).dropCount = s.dropCount := rfl
@[simp] theorem State.withIngress_learnFailCount (s : State) (v : PerPort (List Frame)) : (s.withIngress v).learnFailCount = s.learnFailCount := rfl
@[simp] theorem State.withIngress_ports (s : State) (v : PerPort (List Frame)) : (s.withIngress v).ports = s.ports := rfl
@[simp] theorem State.withIngress_cam (s : State) (v : PerPort (List Frame)) : (s.withIngress v).cam = s.cam := rfl
@[simp] theorem State.withIngress_ingress (s : State) (v : PerPort (List Frame)) : (s.withIngress v).ingress = v := rfl
@[simp] theorem State.withIngress_egress (s : State) (v : PerPort (List Frame)) : (s.withIngress v).egress = s.egress := rfl
@[simp] theorem State.withIngress_response (s : State) (v : PerPort (List Frame)) : (s.withIngress v).response = s.response := rfl
@[simp] theorem State.withIngress_schedule (s : State) (v : PerPort (List Frame)) : (s.withIngress v).schedule = s.schedule := rfl

@[simp] theorem State.withEgress_params (s : State) (v : PerPort (List Frame)) : (s.withEgress v).params = s.params := rfl
@[simp] theorem State.withEgress_enable (s : State) (v : PerPort (List Frame)) : (s.withEgress v).enable = s.enable := rfl
@[simp] theorem State.withEgress_learnFail (s : State) (v : PerPort (List Frame)) : (s.withEgress v).learnFail = s.learnFail := rfl
@[simp] theorem State.withEgress_malformed (s : State) (v : PerPort (List Frame)) : (s.withEgress v).malformed = s.malformed := rfl
@[simp] theorem State.withEgress_oversize (s : State) (v : PerPort (List Frame)) : (s.withEgress v).oversize = s.oversize := rfl
@[simp] theorem State.withEgress_marker (s : State) (v : PerPort (List Frame)) : (s.withEgress v).marker = s.marker := rfl
@[simp] theorem State.withEgress_adminDown (s : State) (v : PerPort (List Frame)) : (s.withEgress v).adminDown = s.adminDown := rfl
@[simp] theorem State.withEgress_exitCheckEn (s : State) (v : PerPort (List Frame)) : (s.withEgress v).exitCheckEn = s.exitCheckEn := rfl
@[simp] theorem State.withEgress_camIndex (s : State) (v : PerPort (List Frame)) : (s.withEgress v).camIndex = s.camIndex := rfl
@[simp] theorem State.withEgress_lastDisp (s : State) (v : PerPort (List Frame)) : (s.withEgress v).lastDisp = s.lastDisp := rfl
@[simp] theorem State.withEgress_rxCount (s : State) (v : PerPort (List Frame)) : (s.withEgress v).rxCount = s.rxCount := rfl
@[simp] theorem State.withEgress_txCount (s : State) (v : PerPort (List Frame)) : (s.withEgress v).txCount = s.txCount := rfl
@[simp] theorem State.withEgress_dropCount (s : State) (v : PerPort (List Frame)) : (s.withEgress v).dropCount = s.dropCount := rfl
@[simp] theorem State.withEgress_learnFailCount (s : State) (v : PerPort (List Frame)) : (s.withEgress v).learnFailCount = s.learnFailCount := rfl
@[simp] theorem State.withEgress_ports (s : State) (v : PerPort (List Frame)) : (s.withEgress v).ports = s.ports := rfl
@[simp] theorem State.withEgress_cam (s : State) (v : PerPort (List Frame)) : (s.withEgress v).cam = s.cam := rfl
@[simp] theorem State.withEgress_ingress (s : State) (v : PerPort (List Frame)) : (s.withEgress v).ingress = s.ingress := rfl
@[simp] theorem State.withEgress_egress (s : State) (v : PerPort (List Frame)) : (s.withEgress v).egress = v := rfl
@[simp] theorem State.withEgress_response (s : State) (v : PerPort (List Frame)) : (s.withEgress v).response = s.response := rfl
@[simp] theorem State.withEgress_schedule (s : State) (v : PerPort (List Frame)) : (s.withEgress v).schedule = s.schedule := rfl

@[simp] theorem State.withResponse_params (s : State) (v : Option HostResponse) : (s.withResponse v).params = s.params := rfl
@[simp] theorem State.withResponse_enable (s : State) (v : Option HostResponse) : (s.withResponse v).enable = s.enable := rfl
@[simp] theorem State.withResponse_learnFail (s : State) (v : Option HostResponse) : (s.withResponse v).learnFail = s.learnFail := rfl
@[simp] theorem State.withResponse_malformed (s : State) (v : Option HostResponse) : (s.withResponse v).malformed = s.malformed := rfl
@[simp] theorem State.withResponse_oversize (s : State) (v : Option HostResponse) : (s.withResponse v).oversize = s.oversize := rfl
@[simp] theorem State.withResponse_marker (s : State) (v : Option HostResponse) : (s.withResponse v).marker = s.marker := rfl
@[simp] theorem State.withResponse_adminDown (s : State) (v : Option HostResponse) : (s.withResponse v).adminDown = s.adminDown := rfl
@[simp] theorem State.withResponse_exitCheckEn (s : State) (v : Option HostResponse) : (s.withResponse v).exitCheckEn = s.exitCheckEn := rfl
@[simp] theorem State.withResponse_camIndex (s : State) (v : Option HostResponse) : (s.withResponse v).camIndex = s.camIndex := rfl
@[simp] theorem State.withResponse_lastDisp (s : State) (v : Option HostResponse) : (s.withResponse v).lastDisp = s.lastDisp := rfl
@[simp] theorem State.withResponse_rxCount (s : State) (v : Option HostResponse) : (s.withResponse v).rxCount = s.rxCount := rfl
@[simp] theorem State.withResponse_txCount (s : State) (v : Option HostResponse) : (s.withResponse v).txCount = s.txCount := rfl
@[simp] theorem State.withResponse_dropCount (s : State) (v : Option HostResponse) : (s.withResponse v).dropCount = s.dropCount := rfl
@[simp] theorem State.withResponse_learnFailCount (s : State) (v : Option HostResponse) : (s.withResponse v).learnFailCount = s.learnFailCount := rfl
@[simp] theorem State.withResponse_ports (s : State) (v : Option HostResponse) : (s.withResponse v).ports = s.ports := rfl
@[simp] theorem State.withResponse_cam (s : State) (v : Option HostResponse) : (s.withResponse v).cam = s.cam := rfl
@[simp] theorem State.withResponse_ingress (s : State) (v : Option HostResponse) : (s.withResponse v).ingress = s.ingress := rfl
@[simp] theorem State.withResponse_egress (s : State) (v : Option HostResponse) : (s.withResponse v).egress = s.egress := rfl
@[simp] theorem State.withResponse_response (s : State) (v : Option HostResponse) : (s.withResponse v).response = v := rfl
@[simp] theorem State.withResponse_schedule (s : State) (v : Option HostResponse) : (s.withResponse v).schedule = s.schedule := rfl

@[simp] theorem State.withSchedule_params (s : State) (v : List Event) : (s.withSchedule v).params = s.params := rfl
@[simp] theorem State.withSchedule_enable (s : State) (v : List Event) : (s.withSchedule v).enable = s.enable := rfl
@[simp] theorem State.withSchedule_learnFail (s : State) (v : List Event) : (s.withSchedule v).learnFail = s.learnFail := rfl
@[simp] theorem State.withSchedule_malformed (s : State) (v : List Event) : (s.withSchedule v).malformed = s.malformed := rfl
@[simp] theorem State.withSchedule_oversize (s : State) (v : List Event) : (s.withSchedule v).oversize = s.oversize := rfl
@[simp] theorem State.withSchedule_marker (s : State) (v : List Event) : (s.withSchedule v).marker = s.marker := rfl
@[simp] theorem State.withSchedule_adminDown (s : State) (v : List Event) : (s.withSchedule v).adminDown = s.adminDown := rfl
@[simp] theorem State.withSchedule_exitCheckEn (s : State) (v : List Event) : (s.withSchedule v).exitCheckEn = s.exitCheckEn := rfl
@[simp] theorem State.withSchedule_camIndex (s : State) (v : List Event) : (s.withSchedule v).camIndex = s.camIndex := rfl
@[simp] theorem State.withSchedule_lastDisp (s : State) (v : List Event) : (s.withSchedule v).lastDisp = s.lastDisp := rfl
@[simp] theorem State.withSchedule_rxCount (s : State) (v : List Event) : (s.withSchedule v).rxCount = s.rxCount := rfl
@[simp] theorem State.withSchedule_txCount (s : State) (v : List Event) : (s.withSchedule v).txCount = s.txCount := rfl
@[simp] theorem State.withSchedule_dropCount (s : State) (v : List Event) : (s.withSchedule v).dropCount = s.dropCount := rfl
@[simp] theorem State.withSchedule_learnFailCount (s : State) (v : List Event) : (s.withSchedule v).learnFailCount = s.learnFailCount := rfl
@[simp] theorem State.withSchedule_ports (s : State) (v : List Event) : (s.withSchedule v).ports = s.ports := rfl
@[simp] theorem State.withSchedule_cam (s : State) (v : List Event) : (s.withSchedule v).cam = s.cam := rfl
@[simp] theorem State.withSchedule_ingress (s : State) (v : List Event) : (s.withSchedule v).ingress = s.ingress := rfl
@[simp] theorem State.withSchedule_egress (s : State) (v : List Event) : (s.withSchedule v).egress = s.egress := rfl
@[simp] theorem State.withSchedule_response (s : State) (v : List Event) : (s.withSchedule v).response = s.response := rfl
@[simp] theorem State.withSchedule_schedule (s : State) (v : List Event) : (s.withSchedule v).schedule = v := rfl

end Sys2Proof.Machine
end

