-- ==== Sys2Proof/Laws/Cam.lean ====
section
/-! SUPPORT. The laws of the learning table: what each operation does to every entry, and that each
keeps the canonical form. -/

namespace Sys2Proof.Machine

/-! Finding entries. -/

theorem camEntry?_mem {cam : Cam} {k : Nat} {e : CamCell} (h : camEntry? cam k = some e) :
    e ∈ cam ∧ e.index = k := by
  have := List.find?_some h
  exact ⟨List.mem_of_find?_eq_some h, by simpa using this⟩

theorem camFind?_mem {cam : Cam} {m : Mac} {e : CamCell} (h : camFind? cam m = some e) :
    e ∈ cam ∧ e.mac = m := by
  have := List.find?_some h
  exact ⟨List.mem_of_find?_eq_some h, by simpa using this⟩

theorem camFind?_none {cam : Cam} {m : Mac} : camFind? cam m = none ↔ ∀ e ∈ cam, e.mac ≠ m := by
  simp [camFind?]

theorem camEntry?_none {cam : Cam} {k : Nat} :
    camEntry? cam k = none ↔ ∀ e ∈ cam, e.index ≠ k := by
  simp [camEntry?]

/-- In a table in canonical form, membership is what `camEntry?` finds. -/
theorem camEntry?_eq_some {cam : Cam} (hw : cam.Pairwise (fun a b => a.index < b.index))
    {k : Nat} {e : CamCell} : camEntry? cam k = some e ↔ e ∈ cam ∧ e.index = k := by
  refine ⟨camEntry?_mem, ?_⟩
  rintro ⟨hm, hk⟩
  induction cam with
  | nil => cases hm
  | cons x xs ih =>
    rw [List.pairwise_cons] at hw
    simp only [camEntry?, List.find?_cons]
    by_cases hx : x.index = k
    · rcases List.mem_cons.1 hm with rfl | hm
      · simp [hk]
      · have := hw.1 e hm; omega
    · rcases List.mem_cons.1 hm with rfl | hm
      · exact absurd hk hx
      · simp only [beq_eq_false_iff_ne.2 hx]
        exact ih hw.2 hm

/-- In a table in canonical form, the entry of a MAC is the one that holds it. -/
theorem camFind?_eq_some {cam : Cam} (hw : cam.Pairwise (fun a b => a.mac ≠ b.mac))
    {m : Mac} {e : CamCell} : camFind? cam m = some e ↔ e ∈ cam ∧ e.mac = m := by
  refine ⟨camFind?_mem, ?_⟩
  rintro ⟨hm, hk⟩
  induction cam with
  | nil => cases hm
  | cons x xs ih =>
    rw [List.pairwise_cons] at hw
    simp only [camFind?, List.find?_cons]
    by_cases hx : x.mac = m
    · rcases List.mem_cons.1 hm with rfl | hm
      · simp [hk]
      · exact absurd (hx.trans hk.symm) (hw.1 e hm)
    · rcases List.mem_cons.1 hm with rfl | hm
      · exact absurd hk hx
      · simp only [beq_eq_false_iff_ne.2 hx]
        exact ih hw.2 hm

/-! The least free index. -/

theorem camFreeFrom_some {cam : Cam} {n k j : Nat} (h : camFreeFrom cam n k = some j) :
    k ≤ j ∧ j < k + n ∧ camValid cam j = false ∧ ∀ i, k ≤ i → i < j → camValid cam i = true := by
  induction n generalizing k with
  | zero => cases h
  | succ n ih =>
    simp only [camFreeFrom] at h
    split at h
    · next hv =>
      obtain ⟨h1, h2, h3, h4⟩ := ih h
      refine ⟨by omega, by omega, h3, fun i hi hj => ?_⟩
      by_cases e : i = k
      · subst e; exact hv
      · exact h4 i (by omega) hj
    · next hv =>
      cases h
      exact ⟨Nat.le_refl _, by omega, by simpa using hv, fun i hi hj => by omega⟩

theorem camFreeFrom_none {cam : Cam} {n k : Nat} :
    camFreeFrom cam n k = none ↔ ∀ i, k ≤ i → i < k + n → camValid cam i = true := by
  induction n generalizing k with
  | zero => simp only [camFreeFrom, true_iff]; intro i h1 h2; omega
  | succ n ih =>
    simp only [camFreeFrom]
    split
    · next hv =>
      rw [ih]
      constructor
      · intro h i h1 h2
        by_cases e : i = k
        · subst e; exact hv
        · exact h i (by omega) (by omega)
      · intro h i h1 h2; exact h i (by omega) (by omega)
    · next hv =>
      simp only [reduceCtorEq, false_iff]
      intro h
      exact hv (h k (Nat.le_refl _) (by omega))

theorem camFree?_some {c : Params} {cam : Cam} {j : Nat} (h : camFree? c cam = some j) :
    j < c.camEntries ∧ camValid cam j = false ∧ ∀ i, i < j → camValid cam i = true := by
  obtain ⟨_, h2, h3, h4⟩ := camFreeFrom_some h
  exact ⟨by omega, h3, fun i hi => h4 i (Nat.zero_le _) hi⟩

theorem camFree?_none {c : Params} {cam : Cam} :
    camFree? c cam = none ↔ ∀ k, k < c.camEntries → camValid cam k = true := by
  rw [camFree?, camFreeFrom_none]
  exact ⟨fun h k hk => h k (Nat.zero_le _) (by omega), fun h i _ hi => h i (by omega)⟩

/-- CAM_FULL is the level that 10_state.md R19 says. -/
theorem camFull_iff (s : State) :
    camFull s = true ↔ ∀ k, k < s.params.camEntries → camValid s.cam k = true := by
  rw [camFull, Option.isNone_iff_eq_none, camFree?_none]

/-! Writing an entry at a free index. -/

theorem mem_camWrite {e x : CamCell} {cam : Cam} (hfree : ∀ y ∈ cam, y.index ≠ e.index) :
    x ∈ camWrite e cam ↔ x = e ∨ x ∈ cam := by
  induction cam with
  | nil => simp [camWrite]
  | cons y ys ih =>
    have hy := hfree y (List.mem_cons_self ..)
    have hys : ∀ z ∈ ys, z.index ≠ e.index := fun z hz => hfree z (List.mem_cons_of_mem _ hz)
    simp only [camWrite]
    split
    · simp
    · split
      · next h => exact absurd h.symm hy
      · rw [List.mem_cons, ih hys, List.mem_cons]; tauto

theorem camWrite_sorted {e : CamCell} {cam : Cam} (hfree : ∀ y ∈ cam, y.index ≠ e.index)
    (hw : cam.Pairwise (fun a b => a.index < b.index)) :
    (camWrite e cam).Pairwise (fun a b => a.index < b.index) := by
  induction cam with
  | nil => simp [camWrite]
  | cons y ys ih =>
    have hy := hfree y (List.mem_cons_self ..)
    have hys : ∀ z ∈ ys, z.index ≠ e.index := fun z hz => hfree z (List.mem_cons_of_mem _ hz)
    have hw' := List.pairwise_cons.1 hw
    simp only [camWrite]
    split
    · next h =>
      refine List.pairwise_cons.2 ⟨fun z hz => ?_, hw⟩
      rcases List.mem_cons.1 hz with rfl | hz
      · exact h
      · exact Nat.lt_trans h (hw'.1 z hz)
    · next h =>
      split
      · next h2 => exact absurd h2.symm hy
      · next h2 =>
        refine List.pairwise_cons.2 ⟨fun z hz => ?_, ih hys hw'.2⟩
        rcases (mem_camWrite hys).1 hz with rfl | hz
        · omega
        · exact hw'.1 z hz

theorem camWrite_macs {e : CamCell} {cam : Cam} (hnew : ∀ y ∈ cam, y.mac ≠ e.mac)
    (hfree : ∀ y ∈ cam, y.index ≠ e.index) (hw : cam.Pairwise (fun a b => a.mac ≠ b.mac)) :
    (camWrite e cam).Pairwise (fun a b => a.mac ≠ b.mac) := by
  induction cam with
  | nil => simp [camWrite]
  | cons y ys ih =>
    have hy := hnew y (List.mem_cons_self ..)
    have hnys : ∀ z ∈ ys, z.mac ≠ e.mac := fun z hz => hnew z (List.mem_cons_of_mem _ hz)
    have hfys : ∀ z ∈ ys, z.index ≠ e.index := fun z hz => hfree z (List.mem_cons_of_mem _ hz)
    have hw' := List.pairwise_cons.1 hw
    simp only [camWrite]
    split
    · exact List.pairwise_cons.2 ⟨fun z hz => (hnew z hz).symm, hw⟩
    · split
      · exact List.pairwise_cons.2 ⟨fun z hz => (hnys z hz).symm, hw'.2⟩
      · refine List.pairwise_cons.2 ⟨fun z hz => ?_, ih hnys hfys hw'.2⟩
        rcases (mem_camWrite hfys).1 hz with rfl | hz
        · exact hy
        · exact hw'.1 z hz

theorem camWrite_wf {c : Params} {cam : Cam} {e : CamCell} (hw : Cam.wf c cam)
    (hnew : ∀ y ∈ cam, y.mac ≠ e.mac) (hfree : ∀ y ∈ cam, y.index ≠ e.index)
    (hi : e.index < c.camEntries) (hp : e.port.toNat < c.nPorts) : Cam.wf c (camWrite e cam) := by
  obtain ⟨h1, h2, h3⟩ := hw
  refine ⟨camWrite_sorted hfree h1, camWrite_macs hnew hfree h2, fun x hx => ?_⟩
  rcases (mem_camWrite hfree).1 hx with rfl | hx
  · exact ⟨hi, hp⟩
  · exact h3 x hx

theorem camEntry?_camWrite {c : Params} {cam : Cam} {e : CamCell} (hw : Cam.wf c cam)
    (hfree : ∀ y ∈ cam, y.index ≠ e.index) (k : Nat) :
    camEntry? (camWrite e cam) k = if k = e.index then some e else camEntry? cam k := by
  have hs := camWrite_sorted hfree hw.1
  split
  · next h => exact (camEntry?_eq_some hs).2 ⟨(mem_camWrite hfree).2 (.inl rfl), h.symm⟩
  · next h =>
    cases hk : camEntry? cam k with
    | none =>
      rw [camEntry?_none] at hk ⊢
      intro x hx
      rcases (mem_camWrite hfree).1 hx with rfl | hx
      · exact fun e => h e.symm
      · exact hk x hx
    | some x =>
      obtain ⟨hx, hxk⟩ := camEntry?_mem hk
      exact (camEntry?_eq_some hs).2 ⟨(mem_camWrite hfree).2 (.inr hx), hxk⟩

/-! Overwriting the port of a known MAC. -/

theorem camMove_wf {c : Params} {cam : Cam} {m : Mac} {p : PortId} (hw : Cam.wf c cam)
    (hp : p.toNat < c.nPorts) : Cam.wf c (camMove m p cam) := by
  obtain ⟨h1, h2, h3⟩ := hw
  refine ⟨?_, ?_, ?_⟩
  · rw [camMove, List.pairwise_map]
    refine h1.imp fun {a b} h => ?_
    split <;> split <;> exact h
  · rw [camMove, List.pairwise_map]
    refine h2.imp fun {a b} h => ?_
    split <;> split <;> exact h
  · intro e he
    obtain ⟨x, hx, rfl⟩ := List.mem_map.1 he
    have := h3 x hx
    split
    · exact ⟨this.1, hp⟩
    · exact this

theorem camEntry?_camMove (cam : Cam) (m : Mac) (p : PortId) (k : Nat) :
    camEntry? (camMove m p cam) k =
      (camEntry? cam k).map (fun e => if e.mac = m then { e with port := p } else e) := by
  induction cam with
  | nil => rfl
  | cons x xs ih =>
    simp only [camEntry?, camMove, List.map_cons, List.find?_cons] at ih ⊢
    have hi : (if x.mac = m then { x with port := p } else x).index = x.index := by split <;> rfl
    rw [hi]
    split
    · rfl
    · exact ih

theorem camFind?_camMove (cam : Cam) (m m' : Mac) (p : PortId) :
    camFind? (camMove m p cam) m' =
      (camFind? cam m').map (fun e => if e.mac = m then { e with port := p } else e) := by
  induction cam with
  | nil => rfl
  | cons x xs ih =>
    simp only [camFind?, camMove, List.map_cons, List.find?_cons] at ih ⊢
    have hi : (if x.mac = m then { x with port := p } else x).mac = x.mac := by split <;> rfl
    rw [hi]
    split
    · rfl
    · exact ih

theorem camLookup_camMove_same {cam : Cam} {m : Mac} {p : PortId} {e : CamCell}
    (h : camFind? cam m = some e) : camLookup (camMove m p cam) m = some p := by
  simp [camLookup, camFind?_camMove, h, (camFind?_mem h).2]

theorem camLookup_camMove_other {cam : Cam} {m m' : Mac} {p : PortId} (hne : m' ≠ m) :
    camLookup (camMove m p cam) m' = camLookup cam m' := by
  simp only [camLookup, camFind?_camMove]
  cases h : camFind? cam m' with
  | none => rfl
  | some e => simp [(camFind?_mem h).2, hne]

/-! Learn: once, everything it can do. -/

/-- The three things Learn can do (42_learning_cam.md R82). -/
theorem learn_cases (m : Mac) (p : PortId) (s : State) :
    (∃ e, camFind? s.cam m = some e ∧ learn m p s = s.withCam (camMove m p s.cam)) ∨
    (∃ k, camFind? s.cam m = none ∧ camFree? s.params s.cam = some k ∧
      learn m p s = s.withCam (camWrite ⟨k, m, p⟩ s.cam)) ∨
    (camFind? s.cam m = none ∧ camFree? s.params s.cam = none ∧
      learn m p s = (s.withLearnFail true).withLearnFailCount (s.learnFailCount + 1)) := by
  unfold learn
  cases h : camFind? s.cam m with
  | some e => exact .inl ⟨e, rfl, rfl⟩
  | none =>
    cases hf : camFree? s.params s.cam with
    | some k => exact .inr (.inl ⟨k, rfl, rfl, rfl⟩)
    | none => exact .inr (.inr ⟨rfl, rfl, rfl⟩)

/-- An index that `camFree?` answers holds no entry. -/
theorem camFree?_unused {c : Params} {cam : Cam} {k : Nat} (h : camFree? c cam = some k) :
    ∀ y ∈ cam, y.index ≠ k := by
  have hv := (camFree?_some h).2.1
  rw [camValid, Option.isSome_eq_false_iff, Option.isNone_iff_eq_none] at hv
  exact camEntry?_none.1 hv

/-- Learn keeps the table's canonical form. -/
theorem learn_wf {s : State} {m : Mac} {p : PortId} (hw : Cam.wf s.params s.cam)
    (hp : p.toNat < s.params.nPorts) : Cam.wf s.params (learn m p s).cam := by
  rcases learn_cases m p s with ⟨e, _, h⟩ | ⟨k, hn, hf, h⟩ | ⟨_, _, h⟩
  · rw [h]; exact camMove_wf hw hp
  · rw [h]
    exact camWrite_wf hw (camFind?_none.1 hn) (camFree?_unused hf) (camFree?_some hf).1 hp
  · rw [h]; exact hw

/-- The flush keeps the table's canonical form. -/
theorem camFlush_wf (s : State) : Cam.wf s.params (camFlush s).cam := by
  simp [camFlush, Cam.wf]

theorem camLookup_camWrite {c : Params} {cam : Cam} {e : CamCell} (hw : Cam.wf c cam)
    (hnew : ∀ y ∈ cam, y.mac ≠ e.mac) (hfree : ∀ y ∈ cam, y.index ≠ e.index) (m : Mac) :
    camLookup (camWrite e cam) m = if m = e.mac then some e.port else camLookup cam m := by
  have hs := camWrite_macs hnew hfree hw.2.1
  split
  · next h =>
    rw [camLookup, (camFind?_eq_some hs).2 ⟨(mem_camWrite hfree).2 (.inl rfl), h.symm⟩]; rfl
  · next h =>
    simp only [camLookup]
    congr 1
    cases hk : camFind? cam m with
    | none =>
      rw [camFind?_none] at hk ⊢
      intro x hx
      rcases (mem_camWrite hfree).1 hx with rfl | hx
      · exact fun e => h e.symm
      · exact hk x hx
    | some x =>
      obtain ⟨hx, hxk⟩ := camFind?_mem hk
      exact (camFind?_eq_some hs).2 ⟨(mem_camWrite hfree).2 (.inr hx), hxk⟩

/-- Learn leaves everything but the table and the two signs of a failed Learn. -/
theorem learn_frame (m : Mac) (p : PortId) (s : State) :
    learn m p s = ((s.withCam (learn m p s).cam).withLearnFail (learn m p s).learnFail).withLearnFailCount
      (learn m p s).learnFailCount := by
  rcases learn_cases m p s with ⟨_, _, h⟩ | ⟨_, _, _, h⟩ | ⟨_, _, h⟩ <;> rw [h] <;> rfl

end Sys2Proof.Machine
end

