-- ==== Sys2Proof/Laws/Decode.lean ====
section
/-! SUPPORT. The laws of the decoder: which opcode words each row matches, and what a transaction at a
mapped, unmapped or PORT_CFG address decodes to. -/

namespace Sys2Proof

/-! The masks, as arithmetic on the opcode word. -/

theorem and_allBits (t : TWord) : t &&& (0x1FFF : TWord) = t := by
  have h : (0x1FFF : TWord) = BitVec.allOnes 13 := by decide
  rw [h, BitVec.and_allOnes]

theorem exactMask_iff (t : TWord) (n : Nat) (hn : n < 2 ^ 13) :
    t &&& (0x1FFF : TWord) = BitVec.ofNat 13 n ↔ t.toNat = n := by
  rw [and_allBits, BitVec.toNat_eq, BitVec.toNat_ofNat, Nat.mod_eq_of_lt hn]

theorem counterMask_iff : ∀ t : TWord, t &&& (0x1FF3 : TWord) = (0x1030 : TWord) ↔
    t.toNat % 4 = 0 ∧ 0x1030 ≤ t.toNat ∧ t.toNat < 0x1040 := by
  decide +kernel

theorem readPortMask_iff : ∀ t : TWord, t &&& (0x1F83 : TWord) = (0x0100 : TWord) ↔
    t.toNat % 4 = 0 ∧ 0x100 ≤ t.toNat ∧ t.toNat < 0x180 := by
  decide +kernel

theorem writePortMask_iff : ∀ t : TWord, t &&& (0x1F83 : TWord) = (0x1100 : TWord) ↔
    t.toNat % 4 = 0 ∧ 0x1100 ≤ t.toNat ∧ t.toNat < 0x1180 := by
  decide +kernel

theorem portField_toNat (t : TWord) : (portField t).toNat = t.toNat / 4 % 32 := by
  simp [portField, BitVec.extractLsb'_toNat, Nat.shiftRight_eq_div_pow]

theorem counterField_toNat (t : TWord) : (counterField t).toNat = t.toNat / 4 % 4 := by
  simp [counterField, BitVec.extractLsb'_toNat, Nat.shiftRight_eq_div_pow]

theorem addrField_toNat (t : TWord) : (t.extractLsb' 0 12).toNat = t.toNat % 4096 := by
  simp [BitVec.extractLsb'_toNat]

theorem tword_toNat (r : HostReq) :
    r.tword.toNat = (if r.rw then 4096 else 0) + r.addr.toNat := by
  have h := r.addr.isLt
  refine (BitVec.toNat_append (BitVec.ofBool r.rw) r.addr).trans ?_
  rw [← Nat.shiftLeft_add_eq_or_of_lt h, Nat.shiftLeft_eq]
  cases r.rw <;> simp

theorem tword_addr (r : HostReq) : r.tword.extractLsb' 0 12 = r.addr := by
  apply BitVec.eq_of_toNat_eq
  have h := r.addr.isLt
  rw [addrField_toNat, tword_toNat]
  split <;> omega

/-! The rows. -/

theorem hits_iff (c : Params) (t : TWord) (row : HostRow) : row.hits c t = true ↔
    t &&& row.mask = row.pattern ∧ (row.needsPort = true → (portField t).toNat < c.nPorts) := by
  cases h : row.needsPort <;> simp [HostRow.hits, h]

theorem hits_exact (c : Params) (t : TWord) (n : Nat) (hn : n < 2 ^ 13) :
    (HostRow.exact (BitVec.ofNat 13 n)).hits c t = true ↔ t.toNat = n := by
  rw [hits_iff, ← exactMask_iff t n hn]; simp [HostRow.exact]

/-- The mapped opcode words, as numbers. -/
theorem mapsAddr_iff (c : Params) (a : BitVec 12) : c.mapsAddr a = true ↔
    a.toNat % 4 = 0 ∧ (a.toNat < 0x40 ∨
      (0x100 ≤ a.toNat ∧ a.toNat < 0x180 ∧ (a.toNat - 0x100) / 4 < c.nPorts)) := by
  simp [Params.mapsAddr]; omega

/-- A row of the table that matches, said by the number of the opcode word: the row's instruction is
the one the number stands for. -/
theorem row_cases {c : Params} {t : TWord} {row : HostRow × (TWord → Word → Instr)}
    (hr : row ∈ hostRows) (hx : row.1.hits c t = true) :
    (row ∈ hostRowsLow ++ hostRowsMiddle ++ hostRowsHigh.take 4 ∧ t.toNat = row.1.pattern.toNat) ∨
    (row.2 = (fun t d => .wrCounter (counterField t) d) ∧ t.toNat % 4 = 0 ∧ 0x1030 ≤ t.toNat ∧
      t.toNat < 0x1040) ∨
    (row.2 = (fun t _ => .rdPortCfg (portField t)) ∧ t.toNat % 4 = 0 ∧ 0x100 ≤ t.toNat ∧
      t.toNat < 0x180 ∧ (portField t).toNat < c.nPorts) ∨
    (row.2 = (fun t d => .wrPortCfg (portField t) d) ∧ t.toNat % 4 = 0 ∧ 0x1100 ≤ t.toNat ∧
      t.toNat < 0x1180 ∧ (portField t).toNat < c.nPorts) := by
  have hsplit : hostRows =
      (hostRowsLow ++ hostRowsMiddle ++ hostRowsHigh.take 4) ++ hostRowsHigh.drop 4 := by
    simp [hostRows]
  rw [hits_iff] at hx
  rw [hsplit, List.mem_append] at hr
  rcases hr with hr | hr
  · left
    refine ⟨hr, ?_⟩
    have hm : row.1.mask = 0x1FFF := by
      have hall : ∀ x ∈ hostRowsLow ++ hostRowsMiddle ++ hostRowsHigh.take 4,
          x.1.mask = 0x1FFF := by
        simp [hostRowsLow, hostRowsMiddle, hostRowsHigh, HostRow.exact]
      exact hall row hr
    rw [hm, and_allBits] at hx
    rw [hx.1]
  · right
    simp only [hostRowsHigh, List.drop_succ_cons, List.drop_zero, List.mem_cons, List.not_mem_nil,
      or_false] at hr
    rcases hr with rfl | rfl | rfl
    · exact .inl ⟨rfl, (counterMask_iff t).1 hx.1⟩
    · have := (readPortMask_iff t).1 hx.1
      exact .inr (.inl ⟨rfl, this.1, this.2.1, this.2.2, hx.2 rfl⟩)
    · have := (writePortMask_iff t).1 hx.1
      exact .inr (.inr ⟨rfl, this.1, this.2.1, this.2.2, hx.2 rfl⟩)

/-- The numbers of the rows that fix all 13 bits. -/
theorem exactRow_numbers :
    (hostRowsLow ++ hostRowsMiddle ++ hostRowsHigh.take 4).map (fun row => row.1.pattern.toNat) =
      [0x0000, 0x1000, 0x0004, 0x1004, 0x0008, 0x1008, 0x000C, 0x100C, 0x0010, 0x1010, 0x0014, 0x1014,
        0x0018, 0x1018, 0x001C, 0x101C, 0x0020, 0x1020, 0x0024, 0x1024, 0x0028, 0x1028, 0x002C,
        0x102C, 0x0030, 0x0034, 0x0038, 0x003C] := by
  decide

theorem exactRow_hits {c : Params} {t : TWord} {n : Nat} (h : t.toNat = n)
    (hn : n ∈ (hostRowsLow ++ hostRowsMiddle ++ hostRowsHigh.take 4).map
      (fun row => row.1.pattern.toNat)) : ∃ row ∈ hostRows, row.1.hits c t = true := by
  obtain ⟨row, hr, hp⟩ := List.mem_map.1 hn
  have hall : ∀ x ∈ hostRowsLow ++ hostRowsMiddle ++ hostRowsHigh.take 4,
      x.1.mask = 0x1FFF ∧ x.1.needsPort = false := by
    simp [hostRowsLow, hostRowsMiddle, hostRowsHigh, HostRow.exact]
  refine ⟨row, ?_, ?_⟩
  · simp only [hostRows, List.mem_append] at hr ⊢
    exact hr.imp_right List.mem_of_mem_take
  · rw [hits_iff, (hall row hr).1, (hall row hr).2, and_allBits]
    exact ⟨BitVec.eq_of_toNat_eq (h.trans hp.symm), by simp⟩

/-- The match and mask table of 30_encoding.md R65 maps exactly the addresses of 20_memory.md R41. -/
theorem mapped_iff_row (c : Params) (r : HostReq) :
    c.mapsAddr r.addr = true ↔ ∃ row ∈ hostRows, row.1.hits c r.tword = true := by
  have ht := tword_toNat r
  have ha := r.addr.isLt
  have hpf := portField_toNat r.tword
  rw [mapsAddr_iff]
  constructor
  · rintro ⟨h4, h | ⟨h1, h2, h3⟩⟩
    · by_cases hw : r.rw = true ∧ 0x30 ≤ r.addr.toNat
      · refine ⟨(⟨0x1030, 0x1FF3, false⟩, fun t d => .wrCounter (counterField t) d), ?_, ?_⟩
        · simp [hostRows, hostRowsHigh]
        · rw [hits_iff]
          simp only [hw.1, if_true] at ht
          exact ⟨(counterMask_iff _).2 (by omega), by simp⟩
      · refine exactRow_hits rfl ?_
        rw [exactRow_numbers]
        simp only [List.mem_cons, List.not_mem_nil, or_false]
        cases hrw : r.rw <;> simp [hrw] at ht hw <;> omega
    · cases hrw : r.rw
      · refine ⟨(⟨0x0100, 0x1F83, true⟩, fun t _ => .rdPortCfg (portField t)), ?_, ?_⟩
        · simp [hostRows, hostRowsHigh]
        · simp [hrw] at ht
          rw [hits_iff]
          exact ⟨(readPortMask_iff _).2 (by omega), fun _ => by omega⟩
      · refine ⟨(⟨0x1100, 0x1F83, true⟩, fun t d => .wrPortCfg (portField t) d), ?_, ?_⟩
        · simp [hostRows, hostRowsHigh]
        · simp [hrw] at ht
          rw [hits_iff]
          exact ⟨(writePortMask_iff _).2 (by omega), fun _ => by omega⟩
  · rintro ⟨row, hr, hx⟩
    rcases row_cases hr hx with ⟨hm, hn⟩ | ⟨-, h1, h2, h3⟩ | ⟨-, h1, h2, h3, h4⟩ |
      ⟨-, h1, h2, h3, h4⟩
    · have := List.mem_map_of_mem (f := fun row => row.1.pattern.toNat) hm
      rw [exactRow_numbers, ← hn] at this
      simp only [List.mem_cons, List.not_mem_nil, or_false] at this
      split at ht <;> omega
    · split at ht <;> omega
    · split at ht <;> omega
    · split at ht <;> omega

/-! Whole transactions. -/

/-- A transaction at an unmapped or misaligned address is BUS_ERR (45_host_interface.md R140). -/
theorem decodeHost_unmapped {c : Params} {r : HostReq} (h : c.mapsAddr r.addr = false) :
    decodeHost c r = .busErr r.tword := by
  have hn : hostRows.find? (fun row => row.1.hits c r.tword) = none := by
    rw [List.find?_eq_none]
    intro row hr hx
    have := (mapped_iff_row c r).2 ⟨row, hr, hx⟩
    simp [h] at this
  rw [decodeHost, hn]

/-- A transaction at a mapped address is decoded by a row that matches it. -/
theorem decodeHost_mapped {c : Params} {r : HostReq} (h : c.mapsAddr r.addr = true) :
    ∃ row ∈ hostRows, row.1.hits c r.tword = true ∧ decodeHost c r = row.2 r.tword r.wdata := by
  cases hf : hostRows.find? (fun row => row.1.hits c r.tword) with
  | none =>
    obtain ⟨row, hr, hx⟩ := (mapped_iff_row c r).1 h
    exact absurd hx (List.find?_eq_none.1 hf row hr)
  | some row =>
    refine ⟨row, List.mem_of_find?_eq_some hf, by simpa using List.find?_some hf, ?_⟩
    rw [decodeHost, hf]

theorem tword_mk (w : Bool) (a : BitVec 12) (d : Word) :
    HostReq.tword ⟨w, a, d⟩ = BitVec.ofBool w ++ a := rfl

/-- A transaction whose opcode word is the number `t`, decoded by the row that `t` finds: the way to
read a row with its write data left as a variable. -/
theorem decodeHost_at {c : Params} {w : Bool} {a : BitVec 12} {d : Word} (t : TWord)
    {row : HostRow × (TWord → Word → Instr)} (ht : BitVec.ofBool w ++ a = t)
    (hf : hostRows.find? (fun x => x.1.hits c t) = some row) :
    decodeHost c ⟨w, a, d⟩ = row.2 t d := by
  subst ht
  simp only [decodeHost, tword_mk, hf]

theorem portCfgAddr_toNat : ∀ p : PortId, (portCfgAddr p).toNat = 0x100 + 4 * p.toNat := by decide

/-- A read of `PORT_CFG[p]` of a port that exists. -/
theorem decodeHost_rdPortCfg {c : Params} {p : PortId} (h : p.toNat < c.nPorts) (d : Word) :
    decodeHost c ⟨false, portCfgAddr p, d⟩ = .rdPortCfg p := by
  have ha := portCfgAddr_toNat p
  have hp := p.isLt
  have hm : c.mapsAddr (portCfgAddr p) = true := by rw [mapsAddr_iff]; omega
  obtain ⟨row, hr, hx, hd⟩ := decodeHost_mapped (r := ⟨false, portCfgAddr p, d⟩) hm
  have ht := tword_toNat ⟨false, portCfgAddr p, d⟩
  simp only [ha, Bool.false_eq_true, if_false] at ht
  rw [hd]
  rcases row_cases hr hx with ⟨hm, hn⟩ | ⟨-, h1, h2, h3⟩ | ⟨he, -⟩ | ⟨-, h1, h2, h3, h4⟩
  · have := List.mem_map_of_mem (f := fun row => row.1.pattern.toNat) hm
    rw [exactRow_numbers, ← hn] at this
    simp only [List.mem_cons, List.not_mem_nil, or_false] at this
    omega
  · omega
  · rw [he]
    have hf := portField_toNat (HostReq.tword ⟨false, portCfgAddr p, d⟩)
    exact congrArg Instr.rdPortCfg (BitVec.eq_of_toNat_eq (by omega))
  · omega

/-- A write of `PORT_CFG[p]` of a port that exists. -/
theorem decodeHost_wrPortCfg {c : Params} {p : PortId} (h : p.toNat < c.nPorts) (d : Word) :
    decodeHost c ⟨true, portCfgAddr p, d⟩ = .wrPortCfg p d := by
  have ha := portCfgAddr_toNat p
  have hp := p.isLt
  have hm : c.mapsAddr (portCfgAddr p) = true := by rw [mapsAddr_iff]; omega
  obtain ⟨row, hr, hx, hd⟩ := decodeHost_mapped (r := ⟨true, portCfgAddr p, d⟩) hm
  have ht := tword_toNat ⟨true, portCfgAddr p, d⟩
  simp only [ha, if_true] at ht
  rw [hd]
  rcases row_cases hr hx with ⟨hm, hn⟩ | ⟨-, h1, h2, h3⟩ | ⟨-, h1, h2, h3, -⟩ | ⟨he, -⟩
  · have := List.mem_map_of_mem (f := fun row => row.1.pattern.toNat) hm
    rw [exactRow_numbers, ← hn] at this
    simp only [List.mem_cons, List.not_mem_nil, or_false] at this
    omega
  · omega
  · omega
  · rw [he]
    have hf := portField_toNat (HostReq.tword ⟨true, portCfgAddr p, d⟩)
    exact congrArg (fun q => Instr.wrPortCfg q d) (BitVec.eq_of_toNat_eq (by omega))

/-! Frames. -/

theorem byteAt_getElem? {raw : Frame} {i : Nat} (h : i < raw.length) :
    raw[i]? = some (byteAt raw i) := by
  simp [byteAt, List.getD_eq_getElem?_getD, List.getElem?_eq_getElem h]

theorem getLsbD_bytes (a b : Byte) (i : Nat) :
    (a ++ b : BitVec 16).getLsbD i = if i < 8 then b.getLsbD i else a.getLsbD (i - 8) :=
  BitVec.getLsbD_append

theorem append_bytes_eq (a b : Byte) (m : BitVec 16) :
    a ++ b = m ↔ a = m.extractLsb' 8 8 ∧ b = m.extractLsb' 0 8 := by
  constructor
  · rintro rfl
    refine ⟨BitVec.eq_of_getLsbD_eq fun i hi => ?_, BitVec.eq_of_getLsbD_eq fun i hi => ?_⟩
    · rw [BitVec.getLsbD_extractLsb', getLsbD_bytes, if_neg (by omega), show 8 + i - 8 = i by omega]
      simp [hi]
    · rw [BitVec.getLsbD_extractLsb', getLsbD_bytes, if_pos (by omega)]
      simp [hi]
  · rintro ⟨rfl, rfl⟩
    refine BitVec.eq_of_getLsbD_eq fun i hi => ?_
    rw [getLsbD_bytes]
    split
    · next h => simp [h]
    · next h =>
      rw [BitVec.getLsbD_extractLsb', show 8 + (i - 8) = i by omega]
      simp [show i - 8 < 8 by omega]

/-- With 14 bytes or more, a frame bears the marker exactly when `be16(raw, 12)` is the marker. -/
theorem bearsMarker_eq {marker : BitVec 16} {raw : Frame} (h : 14 ≤ raw.length) :
    raw.bearsMarker marker = decide (be16 raw 12 = marker) := by
  rw [Bool.eq_iff_iff, decide_eq_true_iff, be16, append_bytes_eq, Frame.bearsMarker,
    byteAt_getElem? (show 12 < raw.length by omega), byteAt_getElem? (show 13 < raw.length by omega)]
  simp

theorem bearsMarker_length {marker : BitVec 16} {raw : Frame} (h : raw.bearsMarker marker = true) :
    14 ≤ raw.length := by
  simp only [Frame.bearsMarker, Bool.and_eq_true, beq_iff_eq] at h
  by_contra hlt
  rw [List.getElem?_eq_none (show raw.length ≤ 13 by omega)] at h
  simp at h

theorem groupBitIs_eq {b : Bool} {raw : Frame} (h : 0 < raw.length) :
    raw.groupBitIs b = decide (groupBit raw = b) := by
  rw [Frame.groupBitIs, byteAt_getElem? h, Bool.eq_iff_iff]
  simp [groupBit]

/-- The I/G bit of the destination is the I/G bit of byte 0. -/
theorem macAt_group (raw : Frame) : (macAt raw 0).getLsbD 40 = groupBit raw := by
  have h : ∀ (x : BitVec 8) (y : BitVec 40), (x ++ y : BitVec 48).getLsbD 40 = x.getLsbD 0 :=
    fun x y => BitVec.getLsbD_append
  have hm : macAt raw 0 = (byteAt raw 0 ++ (byteAt raw 1 ++ byteAt raw 2 ++ byteAt raw 3 ++
      byteAt raw 4 ++ byteAt raw 5 : BitVec 40) : BitVec 48) := by
    simp only [macAt, BitVec.append_assoc, BitVec.cast_eq]
  rw [hm, h, groupBit]

end Sys2Proof
end

