-- ==== Sys2Proof/Laws/Forward.lean ====
section
/-! SUPPORT. What each shared operation of a frame step does, field by field. -/

namespace Sys2Proof.Machine

/-! Accepting a frame. -/

@[simp] theorem acceptFrame_rxCount (p : PortId) (s : State) :
    (acceptFrame p s).rxCount = s.rxCount + 1 := rfl
@[simp] theorem acceptFrame_ingress (p : PortId) (s : State) :
    (acceptFrame p s).ingress = portSet s.ingress p (portGet s.ingress p).tail := rfl
@[simp] theorem acceptFrame_params (p : PortId) (s : State) : (acceptFrame p s).params = s.params := rfl
@[simp] theorem acceptFrame_marker (p : PortId) (s : State) : (acceptFrame p s).marker = s.marker := rfl
@[simp] theorem acceptFrame_ports (p : PortId) (s : State) : (acceptFrame p s).ports = s.ports := rfl
@[simp] theorem acceptFrame_cam (p : PortId) (s : State) : (acceptFrame p s).cam = s.cam := rfl
@[simp] theorem acceptFrame_egress (p : PortId) (s : State) : (acceptFrame p s).egress = s.egress := rfl
@[simp] theorem acceptFrame_adminDown (p : PortId) (s : State) :
    (acceptFrame p s).adminDown = s.adminDown := rfl
@[simp] theorem acceptFrame_txCount (p : PortId) (s : State) :
    (acceptFrame p s).txCount = s.txCount := rfl
@[simp] theorem acceptFrame_learnFail (p : PortId) (s : State) :
    (acceptFrame p s).learnFail = s.learnFail := rfl
@[simp] theorem acceptFrame_learnFailCount (p : PortId) (s : State) :
    (acceptFrame p s).learnFailCount = s.learnFailCount := rfl
@[simp] theorem acceptFrame_exitCheckEn (p : PortId) (s : State) :
    (acceptFrame p s).exitCheckEn = s.exitCheckEn := rfl

/-! Learn changes the table and the two signs of a failed Learn only. -/

theorem learn_fields (m : Mac) (p : PortId) (s : State) :
    (learn m p s).params = s.params ∧ (learn m p s).enable = s.enable ∧
    (learn m p s).malformed = s.malformed ∧ (learn m p s).oversize = s.oversize ∧
    (learn m p s).marker = s.marker ∧ (learn m p s).adminDown = s.adminDown ∧
    (learn m p s).exitCheckEn = s.exitCheckEn ∧ (learn m p s).camIndex = s.camIndex ∧
    (learn m p s).lastDisp = s.lastDisp ∧ (learn m p s).rxCount = s.rxCount ∧
    (learn m p s).txCount = s.txCount ∧ (learn m p s).dropCount = s.dropCount ∧
    (learn m p s).ports = s.ports ∧ (learn m p s).ingress = s.ingress ∧
    (learn m p s).egress = s.egress ∧ (learn m p s).response = s.response ∧
    (learn m p s).schedule = s.schedule := by
  rw [learn_frame]; simp

@[simp] theorem learn_params (m : Mac) (p : PortId) (s : State) : (learn m p s).params = s.params :=
  (learn_fields m p s).1
@[simp] theorem learn_marker (m : Mac) (p : PortId) (s : State) : (learn m p s).marker = s.marker :=
  (learn_fields m p s).2.2.2.2.1
@[simp] theorem learn_adminDown (m : Mac) (p : PortId) (s : State) :
    (learn m p s).adminDown = s.adminDown := (learn_fields m p s).2.2.2.2.2.1
@[simp] theorem learn_exitCheckEn (m : Mac) (p : PortId) (s : State) :
    (learn m p s).exitCheckEn = s.exitCheckEn := (learn_fields m p s).2.2.2.2.2.2.1
@[simp] theorem learn_ports (m : Mac) (p : PortId) (s : State) : (learn m p s).ports = s.ports := by
  obtain ⟨-, -, -, -, -, -, -, -, -, -, -, -, h, -⟩ := learn_fields m p s; exact h
@[simp] theorem learn_egress (m : Mac) (p : PortId) (s : State) : (learn m p s).egress = s.egress := by
  obtain ⟨-, -, -, -, -, -, -, -, -, -, -, -, -, -, h, -⟩ := learn_fields m p s; exact h
@[simp] theorem learn_ingress (m : Mac) (p : PortId) (s : State) :
    (learn m p s).ingress = s.ingress := by
  obtain ⟨-, -, -, -, -, -, -, -, -, -, -, -, -, h, -⟩ := learn_fields m p s; exact h
@[simp] theorem learn_txCount (m : Mac) (p : PortId) (s : State) :
    (learn m p s).txCount = s.txCount := by
  obtain ⟨-, -, -, -, -, -, -, -, -, -, h, -⟩ := learn_fields m p s; exact h
@[simp] theorem learn_rxCount (m : Mac) (p : PortId) (s : State) :
    (learn m p s).rxCount = s.rxCount := by
  obtain ⟨-, -, -, -, -, -, -, -, -, h, -⟩ := learn_fields m p s; exact h

@[simp] theorem afterLearn_params (s : State) (p : PortId) (h : Header) :
    (afterLearn s p h).params = s.params := by simp [afterLearn]
@[simp] theorem afterLearn_marker (s : State) (p : PortId) (h : Header) :
    (afterLearn s p h).marker = s.marker := by simp [afterLearn]
@[simp] theorem afterLearn_ports (s : State) (p : PortId) (h : Header) :
    (afterLearn s p h).ports = s.ports := by simp [afterLearn]
@[simp] theorem afterLearn_adminDown (s : State) (p : PortId) (h : Header) :
    (afterLearn s p h).adminDown = s.adminDown := by simp [afterLearn]
@[simp] theorem afterLearn_exitCheckEn (s : State) (p : PortId) (h : Header) :
    (afterLearn s p h).exitCheckEn = s.exitCheckEn := by simp [afterLearn]
@[simp] theorem afterLearn_egress (s : State) (p : PortId) (h : Header) :
    (afterLearn s p h).egress = s.egress := by simp [afterLearn]
@[simp] theorem isTrunk_afterLearn (s : State) (p o : PortId) (h : Header) :
    isTrunk (afterLearn s p h) o = isTrunk s o := by simp [isTrunk]
@[simp] theorem accessVlan_afterLearn (s : State) (p o : PortId) (h : Header) :
    accessVlan (afterLearn s p h) o = accessVlan s o := by simp [accessVlan]
@[simp] theorem isAdminDown_afterLearn (s : State) (p o : PortId) (h : Header) :
    isAdminDown (afterLearn s p h) o = isAdminDown s o := by simp [isAdminDown]

/-! The multiplexer. -/

theorem transmit_frame (o : PortId) (b : Frame) (s : State) :
    transmit o b s = (s.withEgress (transmit o b s).egress).withTxCount (transmit o b s).txCount := rfl

/-- The multiplexer changes the egress channels and TX_COUNT only. -/
theorem multiplex_frame (f : PortId → Frame) (l : List PortId) (s : State) :
    multiplex f l s = (s.withEgress (multiplex f l s).egress).withTxCount (multiplex f l s).txCount := by
  induction l generalizing s with
  | nil => rfl
  | cons o l ih =>
    have h := ih (transmit o (f o) s)
    simp only [multiplex, List.foldl_cons] at h ⊢
    rw [h]; rfl

/-- The multiplexer appends each admitted port's frame to that port's channel, and nothing to any
other. -/
theorem multiplex_egress (f : PortId → Frame) {l : List PortId} (hl : l.Nodup) (s : State)
    (o : PortId) :
    portGet (multiplex f l s).egress o = portGet s.egress o ++ (if o ∈ l then [f o] else []) := by
  induction l generalizing s with
  | nil => simp [multiplex]
  | cons a l ih =>
    rw [List.nodup_cons] at hl
    have h := ih hl.2 (transmit a (f a) s)
    simp only [multiplex, List.foldl_cons] at h ⊢
    rw [h]
    have ht : (transmit a (f a) s).egress = portSet s.egress a (portGet s.egress a ++ [f a]) := rfl
    rw [ht, portGet_portSet]
    by_cases hao : a = o
    · subst hao; simp [hl.1]
    · have : o ≠ a := fun e => hao e.symm
      simp [hao, this]

theorem multiplex_txCount (f : PortId → Frame) (l : List PortId) (s : State) :
    (multiplex f l s).txCount = s.txCount + BitVec.ofNat 32 l.length := by
  induction l generalizing s with
  | nil => simp [multiplex]
  | cons a l ih =>
    have h := ih (transmit a (f a) s)
    simp only [multiplex, List.foldl_cons] at h ⊢
    rw [h]
    have ht : (transmit a (f a) s).txCount = s.txCount + 1 := rfl
    rw [ht, List.length_cons]
    apply BitVec.eq_of_toNat_eq
    simp [BitVec.toNat_add]
    omega

/-! Candidates and admission. -/

theorem mem_candidates {s : State} {p o : PortId} {mode : FMode} :
    o ∈ candidates s p mode ↔ (mode = .unicastKnown o) ∨
      (mode = .flood ∧ o.toNat < s.params.nPorts ∧ o ≠ p) := by
  cases mode with
  | unicastKnown q => simp [candidates, eq_comm]
  | flood => simp [candidates]

theorem candidates_nodup (s : State) (p : PortId) (mode : FMode) : (candidates s p mode).Nodup := by
  cases mode with
  | unicastKnown q => simp [candidates]
  | flood => exact (allPorts_nodup _).filter _

theorem admit_nodup (s : State) (p : PortId) (h : Header) : (frameWork s p h).admitted.Nodup :=
  ((candidates_nodup s p _).filter _).filter _

/-- A port is admitted when it is a candidate, is not down, and passes the mode's test (44_forwarding.md
R95, R96, R99). -/
theorem mem_admit {s : State} {p o : PortId} {h : Header} :
    o ∈ (frameWork s p h).admitted ↔
      o ∈ candidates s p (selectMode s p h.dst) ∧ isAdminDown s o = false ∧
      admits s (selectMode s p h.dst) (effectiveVlan s p h) (effectiveExit s p h) h.dst o = true := by
  simp [frameWork, upCandidates]
  tauto

theorem selectMode_unicast {s : State} {p q : PortId} {d : Mac} :
    selectMode s p d = .unicastKnown q ↔
      macIsMulticast d = false ∧ camLookup s.cam d = some q ∧ q ≠ p := by
  unfold selectMode macIsUnicast
  cases hm : macIsMulticast d <;> cases hl : camLookup s.cam d <;> simp
  next r => by_cases hr : r = p <;> simp [hr] <;> rintro rfl <;> simp_all

theorem basicTest_iff {s : State} {v : Option VlanId} {o : PortId} :
    basicTest s v o = true ↔ isTrunk s o = true ∨ v = some (accessVlan s o) := by
  cases h : isTrunk s o <;> simp [basicTest, h]

theorem extendedTest_iff {s : State} {v : Option VlanId} {e : Option ExitId} {d : Mac} {o : PortId} :
    extendedTest s v e d o = true ↔ isTrunk s o = true ∨
      (v = some (accessVlan s o) ∧ (s.exitCheckEn = false ∨ e = some (exitIdFromMac d))) := by
  cases h : isTrunk s o <;> cases hx : s.exitCheckEn <;> simp [extendedTest, h, hx]

/-- Whatever the mode, an admitted access port is in the frame's VLAN. -/
theorem admits_vlan {s : State} {mode : FMode} {v : Option VlanId} {e : Option ExitId} {d : Mac}
    {o : PortId} (h : admits s mode v e d o = true) :
    isTrunk s o = true ∨ v = some (accessVlan s o) := by
  cases mode with
  | unicastKnown q => exact (extendedTest_iff.1 h).imp_right And.left
  | flood => exact basicTest_iff.1 h

/-- No frame is admitted back to its own ingress port. -/
theorem ingress_not_admitted (s : State) (p : PortId) (h : Header) :
    p ∉ (frameWork s p h).admitted := by
  rw [mem_admit, mem_candidates]
  rintro ⟨hu | ⟨_, _, hp⟩, _⟩
  · exact (selectMode_unicast.1 hu).2.2 rfl
  · exact hp rfl

/-! The meanings. -/

/-- What a forwarded frame's state becomes. -/
theorem forward_egress (p : PortId) (raw : Frame) (h : Header) (s : State) (o : PortId) :
    portGet (forward p raw h s).egress o = portGet s.egress o ++
      (if o ∈ (frameWork s p h).admitted then [egressFrame s h (frameWork s p h) raw o] else []) :=
  multiplex_egress _ (admit_nodup s p h) s o

/-- A frame step that forwards changes the egress channels, TX_COUNT and LAST_DISP of the state after
Learn. -/
theorem forward_frame (p : PortId) (raw : Frame) (h : Header) (s : State) :
    forward p raw h s =
      ((s.withEgress (forward p raw h s).egress).withTxCount (forward p raw h s).txCount).withLastDisp
        ⟨dispCode (workDisp (frameWork s p h)), p⟩ := by
  have := multiplex_frame (egressFrame s h (frameWork s p h) raw) (frameWork s p h).admitted s
  simp only [forward, recordDisp] at *
  rw [this]; rfl

theorem forward_txCount (p : PortId) (raw : Frame) (h : Header) (s : State) :
    (forward p raw h s).txCount =
      s.txCount + BitVec.ofNat 32 (frameWork s p h).admitted.length :=
  multiplex_txCount _ _ s

theorem exec_forwarded {i : Instr} {p : PortId} {raw : Frame} (hi : forwardedFrame i = some (p, raw))
    (s : State) : exec i s = forwardFrame p raw s := by
  cases i <;> simp [forwardedFrame] at hi <;> obtain ⟨rfl, rfl⟩ := hi <;> rfl

/-- A frame of a forwarded class goes on to the state that its header gives. -/
theorem forwardFrame_next {p : PortId} {raw : Frame} {s t : State}
    (ht : forwardFrame p raw s = .next t) :
    ∃ h, parseHeader s.marker raw = some h ∧ t = forward p raw h (afterLearn s p h) := by
  unfold forwardFrame at ht
  cases hp : parseHeader s.marker raw with
  | none => simp [hp] at ht
  | some h => simp [hp] at ht; exact ⟨h, rfl, ht.symm⟩

/-! Dropping. -/

theorem dropFrame_oversize (p : PortId) (s : State) :
    dropFrame .dropOversize p s =
      .next ((((acceptFrame p s).withOversize true).withDropCount (s.dropCount + 1)).withLastDisp
        ⟨6, p⟩) := rfl

theorem dropFrame_runt (p : PortId) (s : State) :
    dropFrame .dropRunt p s =
      .next ((((acceptFrame p s).withMalformed true).withDropCount (s.dropCount + 1)).withLastDisp
        ⟨4, p⟩) := rfl

theorem dropFrame_taggedRunt (p : PortId) (s : State) :
    dropFrame .dropTaggedRunt p s =
      .next ((((acceptFrame p s).withMalformed true).withDropCount (s.dropCount + 1)).withLastDisp
        ⟨5, p⟩) := rfl

end Sys2Proof.Machine
end

