-- ==== Sys2Proof/Laws/Meaning.lean ====
section
/-! SUPPORT. What a meaning and a step can do, said once: the two kinds of frame class, the host
transactions, what decoding gives, and the cases of a step. -/

namespace Sys2Proof.Machine

/-! The state after Learn, beside Learn in the state before the frame is taken. -/

theorem afterLearn_cam (s : State) (p : PortId) (h : Header) :
    (afterLearn s p h).cam = (learn h.src p s).cam := by
  simp only [afterLearn, learn, acceptFrame_cam, acceptFrame_params]
  split
  · rfl
  · split <;> rfl

theorem afterLearn_learnFail (s : State) (p : PortId) (h : Header) :
    (afterLearn s p h).learnFail = (learn h.src p s).learnFail := by
  simp only [afterLearn, learn, acceptFrame_cam, acceptFrame_params]
  split
  · rfl
  · split <;> rfl

theorem afterLearn_learnFailCount (s : State) (p : PortId) (h : Header) :
    (afterLearn s p h).learnFailCount = (learn h.src p s).learnFailCount := by
  simp only [afterLearn, learn, acceptFrame_cam, acceptFrame_params]
  split
  · rfl
  · split <;> rfl

@[simp] theorem afterLearn_rxCount (s : State) (p : PortId) (h : Header) :
    (afterLearn s p h).rxCount = s.rxCount + 1 := by simp [afterLearn]

@[simp] theorem afterLearn_txCount (s : State) (p : PortId) (h : Header) :
    (afterLearn s p h).txCount = s.txCount := by simp [afterLearn]

@[simp] theorem afterLearn_ingress (s : State) (p : PortId) (h : Header) :
    (afterLearn s p h).ingress = portSet s.ingress p (portGet s.ingress p).tail := by
  simp [afterLearn]

/-! The frame classes. -/

/-- A frame is dropped or forwarded. -/
theorem anyFrame_cases {i : Instr} {p : PortId} {raw : Frame} (h : anyFrame i = some (p, raw))
    (s : State) :
    (∃ d, (d = .dropOversize ∨ d = .dropRunt ∨ d = .dropTaggedRunt) ∧ forwardedFrame i = none ∧
      exec i s = dropFrame d p s) ∨
    (forwardedFrame i = some (p, raw) ∧ exec i s = forwardFrame p raw s) := by
  cases i <;> simp only [anyFrame, forwardedFrame, reduceCtorEq, Option.some.injEq,
    Prod.mk.injEq] at h <;> obtain ⟨rfl, rfl⟩ := h
  · exact .inl ⟨_, .inl rfl, rfl, rfl⟩
  · exact .inl ⟨_, .inr (.inl rfl), rfl, rfl⟩
  · exact .inl ⟨_, .inr (.inr rfl), rfl, rfl⟩
  all_goals exact .inr ⟨rfl, rfl⟩

/-- Decoding a frame gives a frame class with that port and those bytes. -/
theorem decodeFrame_anyFrame (c : Params) (m : BitVec 16) (p : PortId) (raw : Frame) :
    anyFrame (decodeFrame c m p raw) = some (p, raw) := by
  unfold decodeFrame
  (repeat' split) <;> rfl

/-! The host transactions. -/

/-- Decoding a host transaction gives no frame class. -/
theorem decodeHost_anyFrame (c : Params) (r : HostReq) : anyFrame (decodeHost c r) = none := by
  unfold decodeHost
  split
  · next row h =>
    have hm := List.mem_of_find?_eq_some h
    simp only [hostRows, hostRowsLow, hostRowsMiddle, hostRowsHigh, List.cons_append,
      List.nil_append, List.mem_cons, List.not_mem_nil, or_false] at hm
    repeat' (first | (rcases hm with rfl | hm) | (subst hm))
    all_goals rfl
  · rfl

theorem lockedWrite_enabled {s : State} (effect : State → State) (h : s.enable = true) :
    lockedWrite effect s = .next (s.withResponse (some ⟨0, true⟩)) := by
  simp [lockedWrite, h, respondError, answerError]

theorem lockedWrite_disabled {s : State} (effect : State → State) (h : s.enable = false) :
    lockedWrite effect s = .next ((effect s).withResponse (some ⟨0, false⟩)) := by
  simp [lockedWrite, h, respondWrite, answer]

/-- What a host transaction can do to the state beside its response. -/
inductive HostEffect (i : Instr) (s : State) : State → Prop where
  | quiet : HostEffect i s s
  | ctrl (b : Bool) : HostEffect i s (s.withEnable b)
  | flush (b : Bool) : HostEffect i s ((camFlush s).withEnable b)
  | status (d : Word) : HostEffect i s (writeStatus d s)
  | tpid (v : BitVec 16) : s.enable = false → HostEffect i s (s.withMarker v)
  | admin (d : Word) : HostEffect i s (s.withAdminDown (d &&& portMask s.params))
  | mode (b : Bool) : s.enable = false → HostEffect i s (s.withExitCheckEn b)
  | index (v : BitVec 16) : HostEffect i s (s.withCamIndex v)
  | port (p : PortId) (x : Word) : s.enable = false → i = .wrPortCfg p x →
      HostEffect i s (s.withPorts (portSet s.ports p (portCfgOf x)))

/-- Every host transaction that goes on has one of the effects above and puts a response on the bus. -/
theorem host_cases {i : Instr} {s t : State} (ha : anyFrame i = none) (h : exec i s = .next t) :
    ∃ a u, t = State.withResponse u (some a) ∧ HostEffect i s u := by
  cases i <;> first | (simp [anyFrame, forwardedFrame] at ha; done) | skip
  case wrCtrl d =>
    injection h with h
    simp only [writeCtrl] at h
    cases hd : d.getLsbD 1 <;> simp only [hd] at h
    · exact ⟨_, _, h.symm, .ctrl _⟩
    · exact ⟨_, _, h.symm, .flush _⟩
  case wrTpid d =>
    change execWrTpid d s = _ at h
    unfold execWrTpid at h
    cases he : s.enable
    · rw [lockedWrite_disabled _ he] at h
      injection h with h
      exact ⟨_, _, h.symm, .tpid _ he⟩
    · rw [lockedWrite_enabled _ he] at h
      injection h with h
      exact ⟨_, _, h.symm, .quiet⟩
  case wrMode d =>
    change execWrMode d s = _ at h
    unfold execWrMode at h
    cases he : s.enable
    · rw [lockedWrite_disabled _ he] at h
      injection h with h
      exact ⟨_, _, h.symm, .mode _ he⟩
    · rw [lockedWrite_enabled _ he] at h
      injection h with h
      exact ⟨_, _, h.symm, .quiet⟩
  case wrPortCfg p d =>
    change execWrPortCfg p d s = _ at h
    unfold execWrPortCfg at h
    cases he : s.enable
    · rw [lockedWrite_disabled _ he] at h
      injection h with h
      exact ⟨_, _, h.symm, .port p d he rfl⟩
    · rw [lockedWrite_enabled _ he] at h
      injection h with h
      exact ⟨_, _, h.symm, .quiet⟩
  case rdLastDisp =>
    change execRdLastDisp s = _ at h
    simp only [execRdLastDisp] at h
    split at h
    · simp at h
    · injection h with h
      exact ⟨_, _, h.symm, .quiet⟩
  case wrStatus d => injection h with h; exact ⟨_, _, h.symm, .status d⟩
  case wrAdminDown d => injection h with h; exact ⟨_, _, h.symm, .admin d⟩
  case wrCamIndex d => injection h with h; exact ⟨_, _, h.symm, .index _⟩
  all_goals injection h with h; exact ⟨_, s, h.symm, .quiet⟩

/-! The step. -/

/-- The cases of a step, in the state that no longer lists the event. -/
theorem step_cases {s t : State} (h : step s = .next t) :
    (s.schedule = [] ∧ t = s) ∨
    ∃ e rest, s.schedule = e :: rest ∧
      ((∃ r, e = .transact r ∧
          exec (decodeHost s.params r) (s.withSchedule rest) = .next t) ∨
        (∃ p f, e = .deliver p f ∧ t = if s.params.hasPort p then
          deliverFrame p f (s.withSchedule rest) else s.withSchedule rest) ∨
        (∃ p raw, e = .serve p ∧ enabledHead s p = some raw ∧
          exec (decodeFrame s.params s.marker p raw) (s.withSchedule rest) = .next t) ∨
        (∃ p, e = .serve p ∧ enabledHead s p = none ∧ t = s.withSchedule rest) ∨
        e = .reset ∧ t = resetBlock (s.withSchedule rest)) := by
  unfold step at h
  split at h
  · next hs => injection h with h; exact .inl ⟨hs, h.symm⟩
  · next e rest hs =>
    refine .inr ⟨e, rest, hs, ?_⟩
    cases e with
    | transact r => exact .inl ⟨r, rfl, h⟩
    | deliver p f =>
      injection h with h
      exact .inr (.inl ⟨p, f, rfl, h.symm⟩)
    | serve p =>
      have hx : enabledHead (s.withSchedule rest) p = enabledHead s p := rfl
      simp only [fetch, hx] at h
      cases hh : enabledHead s p with
      | none =>
        rw [hh] at h
        injection h with h
        exact .inr (.inr (.inr (.inl ⟨p, rfl, hh, h.symm⟩)))
      | some raw =>
        rw [hh] at h
        exact .inr (.inr (.inl ⟨p, raw, rfl, hh, h⟩))
    | reset =>
      injection h with h
      exact .inr (.inr (.inr (.inr ⟨rfl, h.symm⟩)))

/-- The head that a frame step takes belongs to a port that exists, in a block that is enabled. -/
theorem enabledHead_some {s : State} {p : PortId} {raw : Frame} (h : enabledHead s p = some raw) :
    s.enable = true ∧ p.toNat < s.params.nPorts ∧ (portGet s.ingress p).head? = some raw := by
  unfold enabledHead at h
  split at h
  · next hc =>
    simp only [Bool.and_eq_true, hasPort_eq_true] at hc
    exact ⟨hc.1, hc.2, h⟩
  · simp at h

end Sys2Proof.Machine
end

