-- ==== Sys2Proof/Laws/PerInstr.lean ====
section
/-! SUPPORT. A family of statements with one lemma per instruction: where the encoding of a well-formed
instruction lies. -/

namespace Sys2Proof.Laws.EncodesInMap

open Sys2Proof Sys2Proof.Machine

/-- The instruction is BUS_ERR. -/
def isBusErr : Instr → Bool
  | .busErr _ => true
  | _ => false

/-- A well-formed instruction encodes to a frame on a port that exists, or to a transaction whose
address the register map holds, but for BUS_ERR, whose address it does not hold (20_memory.md R41, R48;
30_encoding.md R64). -/
def Statement (i : Instr) : Prop :=
  ∀ (c : Params) (marker : BitVec 16), i.wellFormed c marker = true →
    match encode i with
    | .frame p _ => c.hasPort p = true
    | .host r => c.mapsAddr r.addr = !isBusErr i

/-- A word address below 0x040 is mapped, whatever the parameters. -/
theorem low_mapped (c : Params) (n : Nat) (h : n < 16) :
    c.mapsAddr (BitVec.ofNat 12 (4 * n)) = true := by
  rw [mapsAddr_iff, BitVec.toNat_ofNat]
  omega

/-- The address of a port that exists is mapped. -/
theorem port_mapped {c : Params} {p : PortId} (h : c.hasPort p = true) :
    c.mapsAddr (portCfgAddr p) = true := by
  rw [hasPort_eq_true] at h
  have hp := p.isLt
  rw [mapsAddr_iff, portCfgAddr_toNat]
  omega

/-- The address of a counter is mapped. -/
theorem counter_mapped (c : Params) (k : BitVec 2) : c.mapsAddr (counterAddr k) = true := by
  have h : ∀ k : BitVec 2, counterAddr k = BitVec.ofNat 12 (4 * (12 + k.toNat)) := by decide
  rw [h]
  exact low_mapped c _ (by have := k.isLt; omega)

/-- The first of a chain of checks. -/
theorem and_first {a b : Bool} (h : (a && b) = true) : a = true := ((Bool.and_eq_true a b).mp h).1

theorem frameOversize (p : PortId) (raw : Frame) : Statement (.frameOversize p raw) :=
  fun _ _ h => and_first h

theorem frameRunt (p : PortId) (raw : Frame) : Statement (.frameRunt p raw) :=
  fun _ _ h => and_first h

theorem frameTaggedRunt (p : PortId) (raw : Frame) : Statement (.frameTaggedRunt p raw) :=
  fun _ _ h => and_first (and_first h)

theorem frameTaggedUcast (p : PortId) (raw : Frame) : Statement (.frameTaggedUcast p raw) :=
  fun _ _ h => and_first (and_first (and_first (and_first h)))

theorem frameTaggedMcast (p : PortId) (raw : Frame) : Statement (.frameTaggedMcast p raw) :=
  fun _ _ h => and_first (and_first (and_first (and_first h)))

theorem frameUntaggedUcast (p : PortId) (raw : Frame) : Statement (.frameUntaggedUcast p raw) :=
  fun _ _ h => and_first (and_first (and_first (and_first h)))

theorem frameUntaggedMcast (p : PortId) (raw : Frame) : Statement (.frameUntaggedMcast p raw) :=
  fun _ _ h => and_first (and_first (and_first (and_first h)))

theorem rdId : Statement (.rdId) :=
  fun c _ _ => low_mapped c 0 (by decide)

theorem wrId (d : Word) : Statement (.wrId d) :=
  fun c _ _ => low_mapped c 0 (by decide)

theorem rdCtrl : Statement (.rdCtrl) :=
  fun c _ _ => low_mapped c 1 (by decide)

theorem wrCtrl (d : Word) : Statement (.wrCtrl d) :=
  fun c _ _ => low_mapped c 1 (by decide)

theorem rdStatus : Statement (.rdStatus) :=
  fun c _ _ => low_mapped c 2 (by decide)

theorem wrStatus (d : Word) : Statement (.wrStatus d) :=
  fun c _ _ => low_mapped c 2 (by decide)

theorem rdTpid : Statement (.rdTpid) :=
  fun c _ _ => low_mapped c 3 (by decide)

theorem wrTpid (d : Word) : Statement (.wrTpid d) :=
  fun c _ _ => low_mapped c 3 (by decide)

theorem rdNports : Statement (.rdNports) :=
  fun c _ _ => low_mapped c 4 (by decide)

theorem wrNports (d : Word) : Statement (.wrNports d) :=
  fun c _ _ => low_mapped c 4 (by decide)

theorem rdCamsize : Statement (.rdCamsize) :=
  fun c _ _ => low_mapped c 5 (by decide)

theorem wrCamsize (d : Word) : Statement (.wrCamsize d) :=
  fun c _ _ => low_mapped c 5 (by decide)

theorem rdAdminDown : Statement (.rdAdminDown) :=
  fun c _ _ => low_mapped c 6 (by decide)

theorem wrAdminDown (d : Word) : Statement (.wrAdminDown d) :=
  fun c _ _ => low_mapped c 6 (by decide)

theorem rdMode : Statement (.rdMode) :=
  fun c _ _ => low_mapped c 7 (by decide)

theorem wrMode (d : Word) : Statement (.wrMode d) :=
  fun c _ _ => low_mapped c 7 (by decide)

theorem rdCamIndex : Statement (.rdCamIndex) :=
  fun c _ _ => low_mapped c 8 (by decide)

theorem wrCamIndex (d : Word) : Statement (.wrCamIndex d) :=
  fun c _ _ => low_mapped c 8 (by decide)

theorem rdCamDataLo : Statement (.rdCamDataLo) :=
  fun c _ _ => low_mapped c 9 (by decide)

theorem wrCamDataLo (d : Word) : Statement (.wrCamDataLo d) :=
  fun c _ _ => low_mapped c 9 (by decide)

theorem rdCamDataHi : Statement (.rdCamDataHi) :=
  fun c _ _ => low_mapped c 10 (by decide)

theorem wrCamDataHi (d : Word) : Statement (.wrCamDataHi d) :=
  fun c _ _ => low_mapped c 10 (by decide)

theorem rdLastDisp : Statement (.rdLastDisp) :=
  fun c _ _ => low_mapped c 11 (by decide)

theorem wrLastDisp (d : Word) : Statement (.wrLastDisp d) :=
  fun c _ _ => low_mapped c 11 (by decide)

theorem rdRxCount : Statement (.rdRxCount) :=
  fun c _ _ => low_mapped c 12 (by decide)

theorem rdTxCount : Statement (.rdTxCount) :=
  fun c _ _ => low_mapped c 13 (by decide)

theorem rdDropCount : Statement (.rdDropCount) :=
  fun c _ _ => low_mapped c 14 (by decide)

theorem rdLearnFailCount : Statement (.rdLearnFailCount) :=
  fun c _ _ => low_mapped c 15 (by decide)

theorem wrCounter (k : BitVec 2) (d : Word) : Statement (.wrCounter k d) :=
  fun c _ _ => counter_mapped c k

theorem rdPortCfg (p : PortId) : Statement (.rdPortCfg p) :=
  fun _ _ h => port_mapped h

theorem wrPortCfg (p : PortId) (d : Word) : Statement (.wrPortCfg p d) :=
  fun _ _ h => port_mapped h

theorem busErr (t : TWord) : Statement (.busErr t) :=
  fun _ _ h => (Bool.not_eq_true' _).mp h

end Sys2Proof.Laws.EncodesInMap
end

