-- ==== Sys2Proof/Tests/Slice0.lean ====
section
/-! SUPPORT. The model's own tests. Expected values are those of spec/95_test_vectors.md (the ids are
named) or are read off the rule named. The second half shows, for each obligation with hypotheses, that
they can be met. -/

namespace Sys2Proof.Tests

open Sys2Proof Sys2Proof.Machine

/-! The instantiation of 95_test_vectors.md section 0. -/

/-- `N_PORTS` 4, `CAM_ENTRIES` 16, `MAX_FRAME_BYTES` 64. -/
def testParams : Params := ⟨3, 15, 46, 0x9100⟩

/-- A block with 2 table entries (program P3). -/
def smallParams : Params := ⟨3, 1, 46, 0x9100⟩

def addrA : List Byte := [2, 0, 0, 0, 0, 1]
def addrB : List Byte := [2, 0, 0, 0, 0, 2]
def addrC : List Byte := [2, 0, 0, 0, 0, 0x11]
def addrD : List Byte := [2, 0, 0, 0, 0, 0x10]
def addrBC : List Byte := [0xFF, 0xFF, 0xFF, 0xFF, 0xFF, 0xFF]
def macA : Mac := 0x020000000001
def macB : Mac := 0x020000000002
def macC : Mac := 0x020000000011
def macD : Mac := 0x020000000010

/-- `E`, the tail of every test frame. -/
def tail : List Byte := [8, 0, 0xAA, 0xBB]

/-- `F(dst, src)`. -/
def plain (dst src : List Byte) : Frame := dst ++ src ++ tail

/-- `F(dst, src, tci)`. -/
def tagged (dst src : List Byte) (hi lo : Byte) : Frame := dst ++ src ++ [0x82, 0, hi, lo] ++ tail

/-- Four PORT_CFG registers. -/
def fourPorts (a b c d : PortCfg) : PerPort PortCfg :=
  portSet (portSet (portSet (portSet (Vector.replicate 32 PortCfg.reset) 0 a) 1 b) 2 c) 3 d

def access (v : VlanId) : PortCfg := ⟨false, v⟩
def trunk : PortCfg := ⟨true, 0⟩

/-- A block that has been set up and enabled, with a table. -/
def running (c : Params) (ports : PerPort PortCfg) (cam : Cam) : State :=
  { State.resetWith c with enable := true, marker := 0x8200, ports := ports, cam := cam }

/-- Configuration P1: port 0 in VLAN 20, ports 1 and 2 in VLAN 10, port 3 a trunk. -/
def confP1 (cam : Cam) : State :=
  running testParams (fourPorts (access 20) (access 10) (access 10) trunk) cam

/-- Configuration P2: ports 0 and 1 in VLAN 7, ports 2 and 3 trunks. -/
def confP2 (cam : Cam) : State :=
  running testParams (fourPorts (access 7) (access 7) trunk trunk) cam

/-- Program P3's block with a full table. -/
def fullTable : State :=
  running smallParams (fourPorts (access 5) (access 5) (access 5) (access 5))
    [⟨0, macA, 0⟩, ⟨1, macB, 1⟩]

/-- A block that is not enabled. -/
def idleBlock : State := State.resetWith testParams

/-- The next state, if there is one. -/
def next? : StepResult → Option State
  | .next t => some t
  | .fault _ => none
  | .refused _ => none

/-- What an instruction puts on the bus: rdata and err. -/
def busOf (r : StepResult) : Option (Word × Bool) :=
  ((next? r).bind (·.response)).map (fun a => (a.rdata, a.err))

/-- What an instruction sends to ports 0 to 3, and LAST_DISP, from a state with empty channels. -/
def sentOf (r : StepResult) : Option (List (List Frame) × LastDisp) :=
  (next? r).map (fun t => ([0, 1, 2, 3].map (portGet t.egress), t.lastDisp))

/-- The instruction of a numbered word: `T` in bits 12:0, `wdata` in bits 47:16. -/
def wordInstr (w : Nat) : Option Instr :=
  match HostReq.ofWord w with
  | .ok r => some (decodeHost testParams r)
  | .error _ => none

/-! Well-formedness: one ill-formed term for each check. -/

theorem test_wf_ports :
    ((Instr.frameRunt 4 [1]).wellFormed testParams 0x8200,
      (Instr.frameRunt 3 [1]).wellFormed testParams 0x8200,
      (Instr.rdPortCfg 4).wellFormed testParams 0x8200,
      (Instr.wrPortCfg 4 0).wellFormed testParams 0x8200,
      (Instr.rdPortCfg 3).wellFormed testParams 0x8200) = (false, true, false, false, true) := by
  decide

theorem test_wf_drop_lengths :
    (Instr.frameOversize 1 (List.replicate 64 0)).wellFormed testParams 0x8200 = false ∧
    (Instr.frameOversize 1 (List.replicate 65 0)).wellFormed testParams 0x8200 = true ∧
    (Instr.frameRunt 1 (addrBC ++ addrC ++ [8, 0])).wellFormed testParams 0x8200 = false ∧
    (Instr.frameTaggedRunt 1 (addrBC ++ addrA ++ [8, 0, 0x30])).wellFormed testParams 0x8200 =
      false ∧
    (Instr.frameTaggedRunt 1 (addrBC ++ addrA ++ [0x82, 0, 0x30, 7, 8, 0])).wellFormed
      testParams 0x8200 = false := by
  decide

theorem test_wf_tagged :
    (Instr.frameTaggedUcast 1 (addrB ++ addrA ++ [0x82, 0, 0x30])).wellFormed testParams 0x8200 =
      false ∧
    (Instr.frameTaggedUcast 1 (tagged addrB addrA 0x30 7 ++ List.replicate 45 0)).wellFormed
      testParams 0x8200 = false ∧
    (Instr.frameTaggedUcast 1 (tagged addrB addrA 0x30 7)).wellFormed testParams 0x8100 = false ∧
    (Instr.frameTaggedUcast 1 (tagged addrBC addrA 0x30 7)).wellFormed testParams 0x8200 = false ∧
    (Instr.frameTaggedMcast 1 (tagged addrB addrA 0x30 7)).wellFormed testParams 0x8200 = false := by
  decide

theorem test_wf_untagged :
    (Instr.frameUntaggedUcast 1 (addrB ++ addrA)).wellFormed testParams 0x8200 = false ∧
    (Instr.frameUntaggedUcast 1 (plain addrB addrA ++ List.replicate 49 0)).wellFormed
      testParams 0x8200 = false ∧
    (Instr.frameUntaggedUcast 1 (tagged addrB addrA 0x30 7)).wellFormed testParams 0x8200 = false ∧
    (Instr.frameUntaggedUcast 1 (plain addrBC addrA)).wellFormed testParams 0x8200 = false ∧
    (Instr.frameUntaggedMcast 1 (plain addrB addrA)).wellFormed testParams 0x8200 = false := by
  decide

theorem test_wf_bus_error :
    (Instr.busErr 0x103C).wellFormed testParams 0x8200 = false ∧
    (Instr.busErr 0x010C).wellFormed testParams 0x8200 = false ∧
    (Instr.busErr 0x0110).wellFormed testParams 0x8200 = true := by
  decide

/-! Decoding: words written out from 30_encoding.md R65, and frames from R56, R57, R62. -/

theorem test_words_low :
    [0x0000, 0x1000, 0x0004, 0x3_1004, 0x0008, 0x7_1008, 0x000C, 0x8200_100C, 0x0010, 0x1_1010,
        0x0014, 0x1_1014, 0x0018, 0xF_1018].map wordInstr =
      [some .rdId, some (.wrId 0), some .rdCtrl, some (.wrCtrl 3), some .rdStatus,
        some (.wrStatus 7), some .rdTpid, some (.wrTpid 0x8200), some .rdNports,
        some (.wrNports 1), some .rdCamsize, some (.wrCamsize 1), some .rdAdminDown,
        some (.wrAdminDown 0xF)] := by
  decide

theorem test_words_high :
    [0x001C, 0x1_101C, 0x0020, 0x12345_1020, 0x0024, 0x1_1024, 0x0028, 0x1_1028, 0x002C,
        0x1_102C, 0x0030, 0x0034, 0x0038, 0x003C, 0x5_1030, 0x5_103C].map wordInstr =
      [some .rdMode, some (.wrMode 1), some .rdCamIndex, some (.wrCamIndex 0x12345),
        some .rdCamDataLo, some (.wrCamDataLo 1), some .rdCamDataHi, some (.wrCamDataHi 1),
        some .rdLastDisp, some (.wrLastDisp 1), some .rdRxCount, some .rdTxCount,
        some .rdDropCount, some .rdLearnFailCount, some (.wrCounter 0 5), some (.wrCounter 3 5)] := by
  decide

theorem test_words_ports_and_errors :
    [0x0100, 0x010C, 0x00140000_1100, 0x00000001_110C, 0x0110, 0x1110, 0x0002, 0x1_1006, 0x0040,
        0x1_1200, 0x2000, 2 ^ 48].map wordInstr =
      [some (.rdPortCfg 0), some (.rdPortCfg 3), some (.wrPortCfg 0 0x00140000),
        some (.wrPortCfg 3 1), some (.busErr 0x0110), some (.busErr 0x1110), some (.busErr 0x0002),
        some (.busErr 0x1006), some (.busErr 0x0040), some (.busErr 0x1200), none, none] := by
  decide

/-- No two rows of 30_encoding.md R65 but the last can match one opcode word. -/
theorem test_rows_disjoint :
    (hostRows.map Prod.fst).Pairwise
      (fun a b => (a.pattern ^^^ b.pattern) &&& a.mask &&& b.mask ≠ 0) := by
  decide

/-- The words that the host places run from reset: `T` alone, and with its write data. -/
theorem test_table_words :
    decodeTableWord 13 0x0000 = some .rdId ∧ decodeTableWord 13 0x1004 = some (.wrCtrl 0) ∧
    decodeTableWord 48 0x8200_100C = some (.wrTpid 0x8200) ∧
    step (State.reset.withFetchWord 13 0x0000) = exec .rdId State.reset :=
  ⟨rfl, rfl, rfl, rfl⟩

/-- V-LEN-1, V-LEN-4 to V-LEN-8: the length classes and their boundaries. -/
theorem test_decode_lengths :
    [[1, 2, 3], addrBC ++ addrC ++ [8], addrBC ++ addrC ++ [8, 0], addrBC ++ addrC ++ [0x82, 0],
        addrBC ++ addrA ++ [0x82, 0, 0x30], List.replicate 65 0,
        plain addrBC addrC ++ List.replicate 48 0].map (decodeFrame testParams 0x8200 1) =
      [.frameRunt 1 [1, 2, 3], .frameRunt 1 (addrBC ++ addrC ++ [8]),
        .frameUntaggedMcast 1 (addrBC ++ addrC ++ [8, 0]),
        .frameTaggedRunt 1 (addrBC ++ addrC ++ [0x82, 0]),
        .frameTaggedRunt 1 (addrBC ++ addrA ++ [0x82, 0, 0x30]),
        .frameOversize 1 (List.replicate 65 0),
        .frameUntaggedMcast 1 (plain addrBC addrC ++ List.replicate 48 0)] := by
  decide

/-- P2 frames 1 and 2, P1 frames 1 and 3: the four forwarded classes. -/
theorem test_decode_classes :
    decodeFrame testParams 0x8200 3 (tagged addrBC addrA 0x30 7) =
      .frameTaggedMcast 3 (tagged addrBC addrA 0x30 7) ∧
    decodeFrame testParams 0x8200 2 (tagged addrA addrD 0x30 7) =
      .frameTaggedUcast 2 (tagged addrA addrD 0x30 7) ∧
    decodeFrame testParams 0x8200 1 (plain addrBC addrC) =
      .frameUntaggedMcast 1 (plain addrBC addrC) ∧
    decodeFrame testParams 0x8200 1 (plain addrB addrC) =
      .frameUntaggedUcast 1 (plain addrB addrC) := by
  decide

/-! The operations on frames. -/

/-- V-DEC-1, V-DEC-2, V-DEC-3, V-DEC-4. -/
theorem test_parse :
    parseHeader 0x8200 (tagged addrBC addrA 0x30 7) =
      some ⟨0xFFFFFFFFFFFF, macA, true, 0x3007, 0x0800⟩ ∧
    parseHeader 0x8200 (plain addrB addrC) = some ⟨macB, macC, false, 0, 0x0800⟩ ∧
    parseHeader 0x8200 (addrBC ++ addrA ++ [0x82, 0, 0x30, 7, 0x82, 0, 0x10, 5, 8, 0]) =
      some ⟨0xFFFFFFFFFFFF, macA, true, 0x3007, 0x8200⟩ ∧
    parseHeader 0x8100 (tagged addrBC addrA 0x30 7) =
      some ⟨0xFFFFFFFFFFFF, macA, false, 0, 0x8200⟩ := by
  decide

/-- V-ENC-1, V-ENC-2, V-ENC-3, V-ENC-5. -/
theorem test_encode_tag :
    [encodeTag 0x8200 3 7, encodeTag 0x8200 4 10, encodeTag 0x8200 0xF 0xFFF,
        encodeTag 0x8200 3 20] =
      [[0x82, 0, 0x30, 7], [0x82, 0, 0x40, 0x0A], [0x82, 0, 0xFF, 0xFF], [0x82, 0, 0x30, 0x14]] := by
  decide

/-- V-RW-A1, V-RW-A2, V-RW-B1, V-RW-C1, V-RW-D1. -/
theorem test_rewrite :
    rewrite 0x8200 true false (some 10) (some 4) (plain addrB addrC) =
      addrB ++ addrC ++ [0x82, 0, 0x40, 0x0A] ++ tail ∧
    rewrite 0x8200 true false none none (plain addrBC addrC) =
      addrBC ++ addrC ++ [0x82, 0, 0xFF, 0xFF] ++ tail ∧
    rewrite 0x8200 true true (some 7) (some 3) (tagged addrBC addrA 0x30 7) =
      tagged addrBC addrA 0x30 7 ∧
    rewrite 0x8200 false true (some 7) (some 3) (tagged addrBC addrA 0x30 7) =
      plain addrBC addrA ∧
    rewrite 0x8200 false false (some 7) (some 3) (plain addrB addrC) = plain addrB addrC := by
  decide

/-- W1, V-CS-1 to V-CS-5. -/
theorem test_exit_ids :
    [macA, 0xFFFFFFFFFFFF, 0, 0x0123456789AB, 0x123456789ABC, macC, 0x020000000020].map
      exitIdFromMac = [3, 4, 0, 2, 14, 4, 4] := by
  decide

/-! Frame classes. -/

/-- V-LEN-1: nothing learned or sent, the drop counted. -/
theorem test_frameRunt :
    (next? (exec (.frameRunt 1 [1, 2, 3]) (confP1 []))).map
        (fun t => (t.lastDisp, t.malformed, t.dropCount, [t.rxCount, t.txCount], t.cam)) =
      some (⟨4, 1⟩, true, 1, [1, 0], []) := by
  decide

/-- V-LEN-5. -/
theorem test_frameTaggedRunt :
    (next? (exec (.frameTaggedRunt 1 (addrBC ++ addrC ++ [0x82, 0])) (confP1 []))).map
        (fun t => (t.lastDisp, t.malformed, t.dropCount, t.cam)) = some (⟨5, 1⟩, true, 1, []) := by
  decide

/-- V-LEN-7: OVERSIZE and not MALFORMED. -/
theorem test_frameOversize :
    (next? (exec (.frameOversize 1 (List.replicate 65 0)) (confP1 []))).map
        (fun t => (t.lastDisp, t.malformed, t.oversize, t.dropCount)) =
      some (⟨6, 1⟩, false, true, 1) := by
  decide

/-- V-FWD-1. -/
theorem test_frameUntaggedMcast :
    sentOf (exec (.frameUntaggedMcast 1 (plain addrBC addrC)) (confP1 [])) =
      some ([[], [], [plain addrBC addrC], [tagged addrBC addrC 0x40 0x0A]], ⟨2, 1⟩) := by
  decide

/-- V-FWD-6: no other port in VLAN 20 but the trunk. -/
theorem test_frameUntaggedMcast_vlan :
    sentOf (exec (.frameUntaggedMcast 0 (plain addrBC addrD)) (confP1 [])) =
      some ([[], [], [], [tagged addrBC addrD 0x30 0x14]], ⟨2, 0⟩) := by
  decide

/-- V-FWD-15: a flood that admits nobody is FILTERED, and its source is learned. -/
theorem test_frameUntaggedMcast_alone :
    (next? (exec (.frameUntaggedMcast 0 (plain addrBC addrA))
        (running ⟨0, 15, 46, 0x9100⟩ (fourPorts (access 10) trunk trunk trunk) []))).map
      (fun t => (t.lastDisp, t.txCount, t.cam)) = some (⟨3, 0⟩, 0, [⟨0, macA, 0⟩]) := by
  decide

/-- V-FWD-2. -/
theorem test_frameUntaggedUcast :
    sentOf (exec (.frameUntaggedUcast 1 (plain addrB addrC)) (confP1 [⟨0, macB, 2⟩])) =
      some ([[], [], [plain addrB addrC], []], ⟨1, 1⟩) := by
  decide

/-- V-FWD-11: a known destination behind a disabled port is not flooded. -/
theorem test_frameUntaggedUcast_down :
    sentOf (exec (.frameUntaggedUcast 1 (plain addrB addrC))
      ((confP1 [⟨0, macB, 2⟩]).withAdminDown 4)) = some ([[], [], [], []], ⟨3, 1⟩) := by
  decide

/-- V-FWD-8 and V-FWD-9: the tag's exit id must match that of the destination. -/
theorem test_frameTaggedUcast :
    sentOf (exec (.frameTaggedUcast 3 (tagged addrD addrA 0x30 0x14)) (confP1 [⟨0, macD, 0⟩])) =
      some ([[plain addrD addrA], [], [], []], ⟨1, 3⟩) ∧
    sentOf (exec (.frameTaggedUcast 3 (tagged addrD addrA 0x40 0x14)) (confP1 [⟨0, macD, 0⟩])) =
      some ([[], [], [], []], ⟨3, 3⟩) := by
  decide

/-- P2 frame 1, and V-FWD-12: a tag that comes on an access port crosses to trunks unchanged. -/
theorem test_frameTaggedMcast :
    sentOf (exec (.frameTaggedMcast 3 (tagged addrBC addrA 0x30 7)) (confP2 [])) =
      some ([[plain addrBC addrA], [plain addrBC addrA], [tagged addrBC addrA 0x30 7], []],
        ⟨2, 3⟩) ∧
    sentOf (exec (.frameTaggedMcast 0 (tagged addrBC addrA 0x30 5)) (confP2 [])) =
      some ([[], [plain addrBC addrA], [tagged addrBC addrA 0x30 5],
        [tagged addrBC addrA 0x30 5]], ⟨2, 0⟩) := by
  decide

/-- V-CAM-1, V-CAM-2, V-CAM-4, V-CAM-6: learning. -/
theorem test_learn :
    (learn macA 1 (confP1 [])).cam = [⟨0, macA, 1⟩] ∧
    (learn macA 3 (confP1 [⟨0, macA, 1⟩])).cam = [⟨0, macA, 3⟩] ∧
    (learn macB 2 (confP1 [⟨0, macA, 3⟩])).cam = [⟨0, macA, 3⟩, ⟨1, macB, 2⟩] ∧
    (learn macC 2 (confP1 [⟨1, macB, 2⟩])).cam = [⟨0, macC, 2⟩, ⟨1, macB, 2⟩] ∧
    (learn macA 3 fullTable).cam = [⟨0, macA, 3⟩, ⟨1, macB, 1⟩] := by
  decide

/-- V-CAM-5 and P3 line 9: a full table. -/
theorem test_learn_full :
    (next? (exec (.frameUntaggedMcast 2 (plain addrBC addrC)) fullTable)).map
        (fun t => (t.cam, t.learnFail, t.learnFailCount, t.lastDisp, t.txCount)) =
      some ([⟨0, macA, 0⟩, ⟨1, macB, 1⟩], true, 1, ⟨2, 2⟩, 3) := by
  decide

/-- V-H-19: a counter wraps; W7 and V-FWD-3: the destination was learned on the ingress port. -/
theorem test_wrap_and_local :
    (next? (exec (.frameUntaggedUcast 1 (plain addrB addrC))
        ((confP1 [⟨0, macB, 1⟩]).withRxCount 0xFFFFFFFF))).map
      (fun t => (t.rxCount, t.lastDisp, (portGet t.egress 1).length, t.txCount)) =
      some (0, ⟨2, 1⟩, 0, 2) := by
  decide

/-! Host reads. -/

/-- V-H-1; P3 line 13; NPORTS = 4; V-H-20. -/
theorem test_reads_constant :
    [busOf (exec .rdId (confP1 [])), busOf (exec .rdNports (confP1 [])),
        busOf (exec .rdCamsize fullTable), busOf (exec .rdCtrl (confP1 [])),
        busOf (exec .rdCtrl idleBlock)] =
      [some (0x4C325357, false), some (4, false), some (2, false), some (1, false),
        some (0, false)] := by
  decide

/-- P3 line 11 (CAM_FULL and LEARN_FAIL), P1 line 12 (MALFORMED), and OVERSIZE in bit 2 (R19). -/
theorem test_rdStatus :
    busOf (exec .rdStatus (fullTable.withLearnFail true)) = some (9, false) ∧
    busOf (exec .rdStatus ((confP1 []).withMalformed true)) = some (2, false) ∧
    busOf (exec .rdStatus ((confP1 []).withOversize true)) = some (4, false) := by
  decide

/-- V-H-9's read, V-H-12's read, V-H-18's read, P4 line 15, reset MODE. -/
theorem test_reads_control :
    [busOf (exec .rdTpid (idleBlock.withMarker 0x5678)),
        busOf (exec .rdAdminDown (idleBlock.withAdminDown 0xF)),
        busOf (exec .rdCamIndex (idleBlock.withCamIndex 0x2345)), busOf (exec .rdMode idleBlock),
        busOf (exec .rdMode (idleBlock.withExitCheckEn false))] =
      [some (0x5678, false), some (0xF, false), some (0x2345, false), some (1, false),
        some (0, false)] := by
  decide

/-- V-CAM-9, V-CAM-10, V-CAM-11. -/
theorem test_rdCamData :
    busOf (exec .rdCamDataLo (confP1 [⟨0, macA, 3⟩])) = some (1, false) ∧
    busOf (exec .rdCamDataHi (confP1 [⟨0, macA, 3⟩])) = some (0x80030200, false) ∧
    busOf (exec .rdCamDataHi (fullTable.withCamIndex 1)) = some (0x80010200, false) ∧
    busOf (exec .rdCamDataHi (fullTable.withCamIndex 2)) = some (0, false) ∧
    busOf (exec .rdCamDataLo (fullTable.withCamIndex 0xFFFF)) = some (0, false) := by
  decide

/-- P2 line 13; P1 line 14; U10. -/
theorem test_rdLastDisp :
    busOf (exec .rdLastDisp (idleBlock.withLastDisp ⟨3, 2⟩)) = some (0x203, false) ∧
    next? (exec .rdLastDisp (idleBlock.withLastDisp ⟨7, 0⟩)) = none := by
  decide

theorem test_reads_counters :
    [busOf (exec .rdRxCount (idleBlock.withRxCount 5)),
        busOf (exec .rdTxCount (idleBlock.withTxCount 7)),
        busOf (exec .rdDropCount (idleBlock.withDropCount 1)),
        busOf (exec .rdLearnFailCount (idleBlock.withLearnFailCount 2))] =
      [some (5, false), some (7, false), some (1, false), some (2, false)] := by
  decide

/-- V-PT-4's read; CFG_TRUNK 3. -/
theorem test_rdPortCfg :
    busOf (exec (.rdPortCfg 1) (idleBlock.withPorts
      (portSet idleBlock.ports 1 ⟨true, 0xABC⟩))) = some (0x0ABC0001, false) ∧
    busOf (exec (.rdPortCfg 3) (confP1 [])) = some (1, false) ∧
    busOf (exec (.rdPortCfg 0) (confP1 [])) = some (0x00140000, false) := by
  decide

/-! Host writes. -/

/-- V-H-16, V-H-17. -/
theorem test_wrCtrl :
    (next? (exec (.wrCtrl 3) ((confP1 [⟨0, macA, 1⟩]).withEnable false))).map
      (fun t => (t.cam, t.enable)) = some ([], true) ∧
    (next? (exec (.wrCtrl 2) (confP1 [⟨0, macA, 1⟩]))).map (fun t => (t.cam, t.enable)) =
      some ([], false) ∧
    (next? (exec (.wrCtrl 0xFFFFFFFC) (confP1 [⟨0, macA, 1⟩]))).map (fun t => (t.cam, t.enable)) =
      some ([⟨0, macA, 1⟩], false) := by
  decide

/-- V-H-13, V-H-14. -/
theorem test_wrStatus :
    (next? (exec (.wrStatus 2) ((idleBlock.withLearnFail true).withMalformed true))).map statusWord =
      some 1 ∧
    (next? (exec (.wrStatus 8) (fullTable.withLearnFail true))).map statusWord = some 9 := by
  decide

/-- V-H-8, V-H-9, V-H-11, P4 line 12. -/
theorem test_locked_writes :
    (next? (exec (.wrTpid 0x8100) (confP1 []))).map (fun t => (t.marker, t.response)) =
      some (0x8200, some ⟨0, true⟩) ∧
    (next? (exec (.wrTpid 0x12345678) idleBlock)).map (fun t => (t.marker, t.response)) =
      some (0x5678, some ⟨0, false⟩) ∧
    (next? (exec (.wrMode 0) (confP1 []))).map (fun t => (t.exitCheckEn, t.response)) =
      some (true, some ⟨0, true⟩) ∧
    (next? (exec (.wrMode 0) idleBlock)).map (fun t => (t.exitCheckEn, t.response)) =
      some (false, some ⟨0, false⟩) := by
  decide

/-- V-H-10, V-PT-4. -/
theorem test_wrPortCfg :
    (next? (exec (.wrPortCfg 1 0x000B0001) (confP1 []))).map
      (fun t => (portGet t.ports 1, t.response)) = some (access 10, some ⟨0, true⟩) ∧
    (next? (exec (.wrPortCfg 1 0x0ABC0001) idleBlock)).map
      (fun t => (portGet t.ports 1, portGet t.ports 0, t.response)) =
      some (⟨true, 0xABC⟩, ⟨false, 0⟩, some ⟨0, false⟩) := by
  decide

/-- V-H-12, V-H-18. -/
theorem test_dynamic_writes :
    (next? (exec (.wrAdminDown 0xFFFFFFFF) (confP1 []))).map (·.adminDown) = some 0xF ∧
    (next? (exec (.wrCamIndex 0x12345) (confP1 []))).map (·.camIndex) = some 0x2345 := by
  decide

/-- V-H-2, V-H-15, and the other read-only registers (45_host_interface.md R119). -/
theorem test_readonly_writes :
    ∀ i ∈ [Instr.wrId 0, .wrNports 1, .wrCamsize 1, .wrCamDataLo 1, .wrCamDataHi 1, .wrLastDisp 1,
        .wrCounter 0 0],
      next? (exec i ((confP1 []).withRxCount 5)) =
        some (((confP1 []).withRxCount 5).withResponse (some ⟨0, false⟩)) := by
  decide

/-- V-H-3 to V-H-7. -/
theorem test_busErr :
    [⟨false, 0x002, 0⟩, ⟨true, 0x006, 1⟩, ⟨false, 0x040, 0⟩, ⟨false, 0x110, 0⟩,
        (⟨true, 0x200, 1⟩ : HostReq)].map
          (fun r => busOf (exec (decodeHost testParams r) idleBlock)) =
      List.replicate 5 (some (0, true)) := by
  decide

/-! Steps. -/

/-- P1 line 7: a frame is delivered, then taken; and one with ENABLE = 0 is not. -/
theorem test_step_serves :
    (next? (step (((confP1 []).withIngress
        (portSet (confP1 []).ingress 1 [plain addrBC addrC])).withSchedule [.serve 1]))).map
      (fun t => (portGet t.ingress 1, portGet t.egress 2, t.cam, t.schedule)) =
      some ([], [plain addrBC addrC], [⟨0, macC, 1⟩], []) ∧
    (next? (step ((idleBlock.withIngress
        (portSet idleBlock.ingress 1 [plain addrBC addrC])).withSchedule [.serve 1]))).map
      (fun t => (portGet t.ingress 1, t.rxCount, t.cam)) = some ([plain addrBC addrC], 0, []) := by
  decide

/-- 70_reset_and_hazards.md R157: a reset leaves the channels and nothing else. -/
theorem test_step_resets :
    (next? (step (((confP1 [⟨0, macA, 1⟩]).withIngress
        (portSet (confP1 []).ingress 1 [[1]])).withSchedule [.reset, .serve 1]))).map
      (fun t => ((t.enable, t.marker, t.cam), portGet t.ingress 1, t.schedule)) =
      some ((false, 0x9100, []), [[1]], [.serve 1]) := by
  decide

/-! Witnesses: for each obligation with hypotheses, a state and operands that meet them all, and for one
with several clauses, each clause at a boundary value. -/

/-- P1 with hosts B and D learned, frames waiting on port 1, and events to come. -/
def demo : State :=
  ((confP1 [⟨0, macB, 2⟩, ⟨1, macD, 0⟩]).withIngress
    (portSet (confP1 []).ingress 1 [plain addrB addrC, [1, 2, 3]])).withSchedule [.serve 1, .serve 0]

/-- A frame of class UNTAGGED_UCAST, from C to B. -/
def unicastFrame : Instr := .frameUntaggedUcast 1 (plain addrB addrC)

/-- The header of `unicastFrame`. -/
def unicastHeader : Header := ⟨macB, macC, false, 0, 0x0800⟩

/-- The header of P2's frame 1. -/
def taggedHeader : Header := ⟨0xFFFFFFFFFFFF, macA, true, 0x3007, 0x0800⟩

theorem demo_inv : MachineInv demo :=
  ⟨by decide, by decide, by decide, by decide, by decide⟩

theorem fullTable_wf : Cam.wf fullTable.params fullTable.cam := by decide

theorem hyp_DecodeEncodeRoundTrip :
    unicastFrame.wellFormed testParams 0x8200 = true ∧
    (Instr.wrPortCfg 3 0x0FFF0001).wellFormed testParams 0x8200 = true ∧
    (Instr.busErr 0x1FFF).wellFormed testParams 0x8200 = true := by
  decide

theorem hyp_DecodedInstrIsWellFormed :
    (∀ p raw, Request.frame 3 [1] = Request.frame p raw → testParams.hasPort p = true) ∧
    ∀ p raw, Request.host ⟨true, 0xFFF, 0⟩ = Request.frame p raw → testParams.hasPort p = true := by
  refine ⟨?_, ?_⟩
  · intro p raw h
    injection h with h1 _
    subst h1
    decide
  · intro p raw h
    injection h

theorem hyp_HeaderRoundTrip : (0x0800 : BitVec 16) ≠ 0x8200 := by decide

theorem hyp_StepKeepsInv : MachineInv demo ∧ ∃ t, step demo = .next t := ⟨demo_inv, _, rfl⟩

theorem hyp_StepRunsHostTransaction :
    (demo.withSchedule [.transact ⟨true, 0x01C, 0⟩]).schedule = [.transact ⟨true, 0x01C, 0⟩] := rfl

theorem hyp_StepRunsServedFrame :
    demo.enable = true ∧ (1 : PortId).toNat < demo.params.nPorts ∧
    portGet demo.ingress 1 = plain addrB addrC :: [[1, 2, 3]] ∧
    demo.schedule = .serve 1 :: [.serve 0] := by
  decide

theorem hyp_NoFrameStepUnlessEnabled :
    ((demo.withEnable false).schedule = .serve 1 :: [.serve 0] ∧
      (demo.withEnable false).enable = false) ∧
    ((demo.withSchedule [.serve 0]).schedule = .serve 0 :: [] ∧
      (demo.withSchedule [.serve 0]).enable = true ∧
      portGet (demo.withSchedule [.serve 0]).ingress 0 = []) ∧
    idleBlock.schedule = [] := by
  decide

theorem hyp_DeliveryAppendsToOneChannel :
    (3 : PortId).toNat < (demo.withSchedule [.deliver 3 [7]]).params.nPorts ∧
    (demo.withSchedule [.deliver 3 [7]]).schedule = .deliver 3 [7] :: [] := by
  decide

theorem hyp_PlacedWordRunsAsDecoded :
    State.reset.params = Config.params ∧ decodeTableWord 13 0x1004 = some (.wrCtrl 0) := ⟨rfl, rfl⟩

theorem hyp_CamDataReads :
    (((fullTable.withCamIndex 1).camIndex.toNat < (fullTable.withCamIndex 1).params.camEntries) ∧
      camEntry? (fullTable.withCamIndex 1).cam 1 = some ⟨1, macB, 1⟩) ∧
    (fullTable.withCamIndex 2).params.camEntries ≤ (fullTable.withCamIndex 2).camIndex.toNat ∧
    camEntry? (confP1 [⟨1, macB, 1⟩]).cam (confP1 [⟨1, macB, 1⟩]).camIndex.toNat = none := by
  decide

theorem hyp_LastDispRead :
    (idleBlock.withLastDisp ⟨6, 3⟩).lastDisp.disp.toNat ≤ 6 ∧
    6 < (idleBlock.withLastDisp ⟨7, 3⟩).lastDisp.disp.toNat := by
  decide

theorem hyp_PortCfgRead :
    (3 : PortId).toNat < idleBlock.params.nPorts ∧ idleBlock.params.nPorts ≤ (4 : PortId).toNat := by
  decide

theorem hyp_PortCfgWrite :
    (3 : PortId).toNat < demo.params.nPorts ∧ demo.params.nPorts ≤ (4 : PortId).toNat ∧
    demo.enable = true ∧ idleBlock.enable = false := by
  decide

theorem hyp_BusErrorTransactions :
    (0xFFF : BitVec 12).toNat % 4 ≠ 0 ∧
    (0x040 ≤ (0x040 : BitVec 12).toNat ∧ (0x0FC : BitVec 12).toNat < 0x100) ∧
    0x180 ≤ (0x180 : BitVec 12).toNat ∧
    (0x100 ≤ (0x110 : BitVec 12).toNat ∧
      idleBlock.params.nPorts ≤ ((0x110 : BitVec 12).toNat - 0x100) / 4) := by
  decide

theorem hyp_ErrorResponsesExactly :
    turnedAway idleBlock ⟨false, 0x110, 0⟩ = true ∧ turnedAway demo ⟨true, 0x10C, 0⟩ = true ∧
    turnedAway demo ⟨true, 0x018, 4⟩ = false ∧
    ∃ t, exec (decodeHost demo.params ⟨true, 0x018, 4⟩) demo = .next t :=
  ⟨by decide, by decide, by decide, _, rfl⟩

theorem hyp_HostReadsChangeNothing :
    (⟨false, 0x008, 0⟩ : HostReq).rw = false ∧
    ∃ t, exec (decodeHost demo.params ⟨false, 0x008, 0⟩) demo = .next t := ⟨rfl, _, rfl⟩

theorem hyp_HostCannotReachFrameState :
    ∃ t, exec (decodeHost demo.params ⟨true, 0x004, 3⟩) demo = .next t := ⟨_, rfl⟩

theorem hyp_RunningConfigurationIsLocked :
    demo.enable = true ∧ demo.schedule.head? ≠ some .reset ∧ ∃ t, step demo = .next t :=
  ⟨rfl, by decide, _, rfl⟩

theorem hyp_DisabledBlockIsQuiet :
    (demo.withEnable false).enable = false ∧
    (demo.withEnable false).schedule.head? ≠ some .reset ∧
    (∀ r, (demo.withEnable false).schedule.head? ≠ some (.transact r)) ∧
    ∃ t, step (demo.withEnable false) = .next t :=
  ⟨rfl, by decide, fun r h => by injection h with h; injection h, _, rfl⟩

theorem hyp_DroppedFrames :
    idleBlock.params.maxFrameBytes < (List.replicate 65 (0 : Byte)).length ∧
    (addrBC ++ addrC ++ [8]).length < 14 ∧
    (14 ≤ (addrBC ++ addrC ++ [0x82, 0]).length ∧
      (addrBC ++ addrC ++ [0x82, 0, 0x30, 7, 8]).length < 18 ∧
      14 ≤ (addrBC ++ addrC ++ [0x82, 0, 0x30, 7, 8]).length ∧
      be16 (addrBC ++ addrC ++ [0x82, 0]) 12 = demo.marker ∧
      be16 (addrBC ++ addrC ++ [0x82, 0, 0x30, 7, 8]) 12 = demo.marker) := by
  decide

theorem hyp_ForwardedFrames :
    forwardedFrame unicastFrame = some (1, plain addrB addrC) ∧
    unicastFrame.wellFormed demo.params demo.marker = true := by
  decide

theorem hyp_LearnWritesOneEntry :
    Cam.wf demo.params demo.cam ∧
    (camEntry? demo.cam 1 = some ⟨1, macD, 0⟩) ∧
    ((∀ e ∈ demo.cam, e.mac ≠ macA) ∧ 2 < demo.params.camEntries ∧ camValid demo.cam 2 = false ∧
      ∀ j, j < 2 → camValid demo.cam j = true) ∧
    Cam.wf fullTable.params fullTable.cam ∧ (∀ e ∈ fullTable.cam, e.mac ≠ macC) ∧
    ∀ k, k < fullTable.params.camEntries → camValid fullTable.cam k = true :=
  ⟨by decide, by decide, by decide, fullTable_wf, by decide, by
    decide⟩

theorem hyp_SourceIsLearned :
    forwardedFrame unicastFrame = some (1, plain addrB addrC) ∧ Cam.wf demo.params demo.cam ∧
    (∃ t, exec unicastFrame demo = .next t) ∧ camFull demo = false ∧
    camLookup (demo.withCam [⟨0, macC, 3⟩]).cam macC ≠ none :=
  ⟨rfl, by decide, ⟨_, rfl⟩, by decide, by decide⟩

theorem hyp_LearnedAddressStays :
    MachineInv demo ∧ demo.schedule = .serve 1 :: [.serve 0] ∧ (∃ t, step demo = .next t) ∧
    camLookup demo.cam macB = some 2 := ⟨demo_inv, rfl, ⟨_, rfl⟩, by decide⟩

theorem hyp_ValidEntryKeepsItsMac :
    MachineInv demo ∧ ∃ t, step demo = .next t ∧ camEntry? demo.cam 1 = some ⟨1, macD, 0⟩ ∧
      camEntry? t.cam 1 = some ⟨1, macD, 0⟩ :=
  ⟨demo_inv, _, rfl, by decide, by decide⟩

theorem hyp_LookupFindsTheEntry : Cam.wf smallParams fullTable.cam := by decide

theorem hyp_ModeAndCandidates :
    (macB.getLsbD 40 = false ∧ camLookup demo.cam macB = some 2 ∧ (2 : PortId) ≠ 1) ∧
    (0x01005E000001 : Mac).getLsbD 40 = true ∧ camLookup demo.cam macA = none ∧
    camLookup demo.cam macB = some 2 := by
  decide

theorem hyp_EffectiveIds :
    (isTrunk demo 3 = true ∧ taggedHeader.tagged = true) ∧
    (isTrunk demo 3 = true ∧ unicastHeader.tagged = false) ∧ isTrunk demo 1 = false := by
  decide

theorem hyp_RewriteCases :
    12 ≤ (addrBC ++ addrC).length ∧ 16 ≤ (addrBC ++ addrC ++ [0x82, 0, 0x30, 7]).length := by
  decide

theorem hyp_TrunkFramesBearTheMarker :
    parseHeader demo.marker (plain addrB addrC) = some unicastHeader ∧ isTrunk demo 3 = true := by
  decide

theorem hyp_anyFrame :
    anyFrame unicastFrame = some (1, plain addrB addrC) ∧
    (∃ t, exec unicastFrame demo = .next t) ∧
    anyFrame (.frameRunt 1 [1, 2, 3]) = some (1, [1, 2, 3]) ∧
    ∃ t, exec (.frameRunt 1 [1, 2, 3]) demo = .next t := ⟨rfl, ⟨_, rfl⟩, rfl, ⟨_, rfl⟩⟩

theorem hyp_NoSelfForwarding :
    anyFrame unicastFrame = some (1, plain addrB addrC) ∧ ∃ t, exec unicastFrame demo = .next t :=
  ⟨rfl, _, rfl⟩

theorem hyp_FloodVlanIsolation :
    (frameWork demo 1 ⟨0xFFFFFFFFFFFF, macC, false, 0, 0x0800⟩).mode = .flood ∧
    (frameWork demo 1 ⟨0xFFFFFFFFFFFF, macC, false, 0, 0x0800⟩).vlan = some 10 ∧
    demo.adminDown = 0 ∧
    2 ∈ (frameWork demo 1 ⟨0xFFFFFFFFFFFF, macC, false, 0, 0x0800⟩).admitted ∧
    isTrunk demo 2 = false := by
  decide

theorem hyp_AccessPortsOfOtherVlansAreUnreachable :
    anyFrame unicastFrame = some (1, plain addrB addrC) ∧ isTrunk demo 1 = false ∧
    isTrunk demo 0 = false ∧ accessVlan demo 0 ≠ accessVlan demo 1 ∧
    ∃ t, exec unicastFrame demo = .next t :=
  ⟨rfl, by decide, by decide, by decide, _, rfl⟩

theorem hyp_UntaggedTrunkFrameReachesOnlyTrunks :
    forwardedFrame (.frameUntaggedUcast 3 (plain addrB addrC)) = some (3, plain addrB addrC) ∧
    parseHeader demo.marker (plain addrB addrC) = some unicastHeader ∧
    unicastHeader.tagged = false ∧ isTrunk demo 3 = true ∧ isTrunk demo 2 = false ∧
    ∃ t, exec (.frameUntaggedUcast 3 (plain addrB addrC)) demo = .next t :=
  ⟨rfl, by decide, rfl, by decide, by decide, _, rfl⟩

theorem hyp_AdminDownPortIsSentNothing :
    anyFrame unicastFrame = some (1, plain addrB addrC) ∧
    (∃ t, exec unicastFrame (demo.withAdminDown 4) = .next t) ∧
    isAdminDown (demo.withAdminDown 4) 2 = true ∧
    forwardedFrame unicastFrame = some (1, plain addrB addrC) ∧
    parseHeader (demo.withAdminDown 4).marker (plain addrB addrC) = some unicastHeader ∧
    (workOf (demo.withAdminDown 4) 1 unicastHeader).mode = .unicastKnown 2 :=
  ⟨rfl, ⟨_, rfl⟩, by decide, rfl, by decide, by decide⟩

theorem hyp_TrunkTransparency :
    forwardedFrame (.frameTaggedMcast 3 (tagged addrBC addrA 0x30 7)) =
      some (3, tagged addrBC addrA 0x30 7) ∧
    parseHeader (confP2 []).marker (tagged addrBC addrA 0x30 7) = some taggedHeader ∧
    taggedHeader.tagged = true ∧
    (∃ t, exec (.frameTaggedMcast 3 (tagged addrBC addrA 0x30 7)) (confP2 []) = .next t) ∧
    2 ∈ (workOf (confP2 []) 3 taggedHeader).admitted ∧ isTrunk (confP2 []) 2 = true ∧
    1 ∈ (workOf (confP2 []) 3 taggedHeader).admitted ∧ isTrunk (confP2 []) 1 = false :=
  ⟨rfl, by decide, rfl, ⟨_, rfl⟩, by decide, by decide, by decide,
    by decide⟩

/-- The header of V-FWD-8's frame, from trunk port 3 to D behind access port 0. -/
def trunkHeader : Header := ⟨macD, macA, true, 0x3014, 0x0800⟩

theorem hyp_UnicastConvergence :
    (Cam.wf demo.params demo.cam ∧ forwardedFrame unicastFrame = some (1, plain addrB addrC) ∧
      parseHeader demo.marker (plain addrB addrC) = some unicastHeader ∧ (2 : PortId) ≠ 1 ∧
      macIsMulticast unicastHeader.dst = false ∧ unicastHeader.dst ≠ unicastHeader.src ∧
      camLookup demo.cam unicastHeader.dst = some 2) ∧
    isTrunk demo 1 = false ∧ isTrunk demo 2 = false := by
  decide

theorem hyp_UnicastConvergence_toTrunk :
    (Cam.wf testParams (confP1 [⟨0, macB, 3⟩]).cam ∧
      forwardedFrame unicastFrame = some (1, plain addrB addrC) ∧
      parseHeader (confP1 [⟨0, macB, 3⟩]).marker (plain addrB addrC) = some unicastHeader ∧
      (3 : PortId) ≠ 1 ∧ macIsMulticast unicastHeader.dst = false ∧
      unicastHeader.dst ≠ unicastHeader.src ∧
      camLookup (confP1 [⟨0, macB, 3⟩]).cam unicastHeader.dst = some 3) ∧
    isTrunk (confP1 [⟨0, macB, 3⟩]) 3 = true := by
  decide

theorem hyp_UnicastConvergence_fromTrunk :
    (Cam.wf demo.params demo.cam ∧
      forwardedFrame (.frameTaggedUcast 3 (tagged addrD addrA 0x30 0x14)) =
        some (3, tagged addrD addrA 0x30 0x14) ∧
      parseHeader demo.marker (tagged addrD addrA 0x30 0x14) = some trunkHeader ∧
      (0 : PortId) ≠ 3 ∧ macIsMulticast trunkHeader.dst = false ∧
      trunkHeader.dst ≠ trunkHeader.src ∧ camLookup demo.cam trunkHeader.dst = some 0) ∧
    isTrunk demo 3 = true ∧ isTrunk demo 0 = false := by
  decide

theorem hyp_GroupAndLocalDestinationsFlood :
    (Instr.frameUntaggedMcast 1 (plain addrBC addrC)).wellFormed demo.params demo.marker = true ∧
    forwardedFrame (.frameUntaggedMcast 1 (plain addrBC addrC)) = some (1, plain addrBC addrC) ∧
    parseHeader demo.marker (plain addrBC addrC) =
      some ⟨0xFFFFFFFFFFFF, macC, false, 0, 0x0800⟩ ∧
    (Instr.frameUntaggedUcast 2 (plain addrB addrC)).wellFormed demo.params demo.marker = true ∧
    forwardedFrame (.frameUntaggedUcast 2 (plain addrB addrC)) = some (2, plain addrB addrC) ∧
    parseHeader demo.marker (plain addrB addrC) = some unicastHeader ∧
    Cam.wf demo.params demo.cam ∧ camLookup demo.cam unicastHeader.dst = some 2 := by
  decide

theorem hyp_TransmitBounds :
    (3 : PortId).toNat < demo.params.nPorts ∧
    (frameWork demo 1 unicastHeader).mode = .unicastKnown 2 ∧
    (frameWork demo 3 taggedHeader).mode = .flood := by
  decide

/-- With `hyp_anyFrame`: each of codes 1 to 4 is reached. -/
theorem hyp_DispositionTellsWhatWasSent :
    (next? (exec unicastFrame demo)).map (·.lastDisp.disp) = some 1 ∧
    (next? (exec (.frameUntaggedMcast 1 (plain addrBC addrC)) demo)).map (·.lastDisp.disp) = some 2 ∧
    (next? (exec unicastFrame (demo.withAdminDown 4))).map (·.lastDisp.disp) = some 3 ∧
    (next? (exec (.frameRunt 1 [1, 2, 3]) demo)).map (·.lastDisp.disp) = some 4 := by
  decide

theorem hyp_DispositionTellsWhatWasSent_modes :
    (forwardedFrame unicastFrame = some (1, plain addrB addrC) ∧
      parseHeader demo.marker (plain addrB addrC) = some unicastHeader ∧
      (workOf demo 1 unicastHeader).mode = .unicastKnown 2) ∧
    forwardedFrame (.frameUntaggedMcast 1 (plain addrBC addrC)) = some (1, plain addrBC addrC) ∧
    parseHeader demo.marker (plain addrBC addrC) =
      some ⟨0xFFFFFFFFFFFF, macC, false, 0, 0x0800⟩ ∧
    (workOf demo 1 ⟨0xFFFFFFFFFFFF, macC, false, 0, 0x0800⟩).mode = .flood := by
  decide

theorem hyp_MembershipTests :
    (frameWork demo 1 unicastHeader).mode = .unicastKnown 2 ∧
    (frameWork demo 1 ⟨0xFFFFFFFFFFFF, macC, false, 0, 0x0800⟩).mode = .flood := by
  decide

theorem hyp_FramesWriteNoConfiguration :
    anyFrame unicastFrame = some (1, plain addrB addrC) ∧
    (∃ t, exec unicastFrame ((demo.withLearnFail true).withOversize true) = .next t) ∧
    ((demo.withLearnFail true).withOversize true).learnFail = true := ⟨rfl, ⟨_, rfl⟩, rfl⟩

theorem hyp_EgressOnlyGrows : ∃ t, step demo = .next t := ⟨_, rfl⟩

theorem hyp_PayloadIsOpaque :
    forwardedFrame unicastFrame = some (1, plain addrB addrC) ∧
    forwardedFrame (.frameUntaggedUcast 1 (addrB ++ addrC ++ [0x86, 0xDD, 9])) =
      some (1, addrB ++ addrC ++ [0x86, 0xDD, 9]) ∧
    parseHeader demo.marker (plain addrB addrC) = some unicastHeader ∧
    parseHeader demo.marker (addrB ++ addrC ++ [0x86, 0xDD, 9]) =
      some ⟨macB, macC, false, 0, 0x86DD⟩ ∧
    (∃ t, exec unicastFrame demo = .next t) ∧
    ∃ t, exec (.frameUntaggedUcast 1 (addrB ++ addrC ++ [0x86, 0xDD, 9])) demo = .next t :=
  ⟨rfl, rfl, by decide, by decide, ⟨_, rfl⟩, ⟨_, rfl⟩⟩

end Sys2Proof.Tests
end

