-- ==== Sys2Proof/Proofs/FrameFields.lean ====
section
/-! PROOFS. What a frame step can do, and which fields dropping and forwarding leave unchanged. -/

namespace Sys2Proof.Machine

/-! Dropping a frame. -/

/-- A drop sets one of two sticky bits, counts, and records its disposition (44_forwarding.md R102). -/
theorem raiseDrop_cases (d : Disposition) (p : PortId) (s : State) :
    raiseDrop d p s =
      ((s.withOversize true).withDropCount (s.dropCount + 1)).withLastDisp ⟨dispCode d, p⟩ ∨
    raiseDrop d p s =
      ((s.withMalformed true).withDropCount (s.dropCount + 1)).withLastDisp ⟨dispCode d, p⟩ := by
  by_cases hd : d = .dropOversize
  · exact .inl (by simp [raiseDrop, setDropStatus, recordDisp, hd])
  · exact .inr (by simp [raiseDrop, setDropStatus, recordDisp, hd])

@[simp] theorem raiseDrop_ports (d : Disposition) (p : PortId) (s : State) :
    (raiseDrop d p s).ports = s.ports := by
  rcases raiseDrop_cases d p s with h | h <;> rw [h] <;> rfl
@[simp] theorem raiseDrop_marker (d : Disposition) (p : PortId) (s : State) :
    (raiseDrop d p s).marker = s.marker := by
  rcases raiseDrop_cases d p s with h | h <;> rw [h] <;> rfl
@[simp] theorem raiseDrop_exitCheckEn (d : Disposition) (p : PortId) (s : State) :
    (raiseDrop d p s).exitCheckEn = s.exitCheckEn := by
  rcases raiseDrop_cases d p s with h | h <;> rw [h] <;> rfl

/-! Forwarding a frame. -/

@[simp] theorem forward_ports (p : PortId) (raw : Frame) (h : Header) (s : State) :
    (forward p raw h s).ports = s.ports := by rw [forward_frame]; rfl
@[simp] theorem forward_marker (p : PortId) (raw : Frame) (h : Header) (s : State) :
    (forward p raw h s).marker = s.marker := by rw [forward_frame]; rfl
@[simp] theorem forward_exitCheckEn (p : PortId) (raw : Frame) (h : Header) (s : State) :
    (forward p raw h s).exitCheckEn = s.exitCheckEn := by rw [forward_frame]; rfl

/-! The meaning of a frame class. -/

/-- What a frame step does: it takes the frame, and then drops it or learns and forwards. -/
theorem exec_frame_cases {i : Instr} {p : PortId} {raw : Frame} {s t : State}
    (hi : anyFrame i = some (p, raw)) (ht : exec i s = .next t) :
    (∃ d, t = raiseDrop d p (acceptFrame p s)) ∨ ∃ h, t = forward p raw h (afterLearn s p h) := by
  rcases anyFrame_cases hi s with ⟨d, -, -, hx⟩ | ⟨-, hx⟩
  · rw [hx] at ht
    injection ht with ht
    exact .inl ⟨d, ht.symm⟩
  · rw [hx] at ht
    obtain ⟨h, -, ht⟩ := forwardFrame_next ht
    exact .inr ⟨h, ht⟩

end Sys2Proof.Machine
end

