-- ==== Sys2Proof/Proofs/Invariant.lean ====
section
/-! PROOFS. Every step keeps the invariant of Safety.lean: first each update of the fields that the
invariant reads, then each operation, then the step. -/

namespace Sys2Proof.Machine

/-! The updates. -/

/-- The fields that the invariant reads. -/
def invFields (s : State) :
    Params × Cam × Word × LastDisp × PerPort PortCfg × PerPort (List Frame) × PerPort (List Frame) :=
  (s.params, s.cam, s.adminDown, s.lastDisp, s.ports, s.ingress, s.egress)

/-- An update of any other field keeps the invariant. -/
theorem MachineInv.of_invFields {s t : State} (hs : MachineInv s) (h : invFields t = invFields s) :
    MachineInv t := by
  simp only [invFields, Prod.mk.injEq] at h
  obtain ⟨hparams, hcam, hadmin, hdisp, hports, hingress, hegress⟩ := h
  constructor
  · rw [hparams, hcam]; exact hs.camWf
  · rw [hparams, hadmin]; exact hs.adminMasked
  · rw [hdisp]; exact hs.dispLegal
  · rw [hparams, hdisp]; exact hs.dispPort
  · rw [hparams, hports, hingress, hegress]; exact hs.noPort

theorem MachineInv.withCam {s : State} {v : Cam} (hs : MachineInv s) (hv : Cam.wf s.params v) :
    MachineInv (s.withCam v) :=
  ⟨hv, hs.adminMasked, hs.dispLegal, hs.dispPort, hs.noPort⟩

theorem MachineInv.withAdminDown {s : State} {v : Word} (hs : MachineInv s)
    (hv : v &&& portMask s.params = v) : MachineInv (s.withAdminDown v) :=
  ⟨hs.camWf, hv, hs.dispLegal, hs.dispPort, hs.noPort⟩

/-- No disposition has a reserved code (60_exceptions.md R143). -/
theorem dispReserved_dispCode (d : Disposition) : dispReserved (dispCode d) = false := by
  cases d <;> rfl

theorem MachineInv.withLastDisp {s : State} {p : PortId} (d : Disposition) (hs : MachineInv s)
    (hp : p.toNat < s.params.nPorts) : MachineInv (s.withLastDisp ⟨dispCode d, p⟩) :=
  ⟨hs.camWf, hs.adminMasked, dispReserved_dispCode d, (hasPort_eq_true _ _).2 hp, hs.noPort⟩

/-- Writing the slot of a port that exists leaves the slots of those that do not. -/
theorem portGet_portSet_noPort {α : Type} {c : Params} {p q : PortId} (v : PerPort α) (x : α)
    (hp : p.toNat < c.nPorts) (hq : c.hasPort q = false) :
    portGet (portSet v p x) q = portGet v q := by
  refine portGet_portSet_other v x fun e => ?_
  rw [← e, (hasPort_eq_true c p).2 hp] at hq
  exact Bool.noConfusion hq

theorem MachineInv.withPorts_portSet {s : State} {p : PortId} (x : PortCfg) (hs : MachineInv s)
    (hp : p.toNat < s.params.nPorts) : MachineInv (s.withPorts (portSet s.ports p x)) := by
  refine ⟨hs.camWf, hs.adminMasked, hs.dispLegal, hs.dispPort, fun q hq => ?_⟩
  obtain ⟨hports, hingress, hegress⟩ := hs.noPort q hq
  exact ⟨(portGet_portSet_noPort _ _ hp hq).trans hports, hingress, hegress⟩

theorem MachineInv.withIngress_portSet {s : State} {p : PortId} (x : List Frame) (hs : MachineInv s)
    (hp : p.toNat < s.params.nPorts) : MachineInv (s.withIngress (portSet s.ingress p x)) := by
  refine ⟨hs.camWf, hs.adminMasked, hs.dispLegal, hs.dispPort, fun q hq => ?_⟩
  obtain ⟨hports, hingress, hegress⟩ := hs.noPort q hq
  exact ⟨hports, (portGet_portSet_noPort _ _ hp hq).trans hingress, hegress⟩

theorem MachineInv.withEgress {s : State} {v : PerPort (List Frame)} (hs : MachineInv s)
    (hv : ∀ q, s.params.hasPort q = false → portGet v q = portGet s.egress q) :
    MachineInv (s.withEgress v) := by
  refine ⟨hs.camWf, hs.adminMasked, hs.dispLegal, hs.dispPort, fun q hq => ?_⟩
  obtain ⟨hports, hingress, hegress⟩ := hs.noPort q hq
  exact ⟨hports, hingress, (hv q hq).trans hegress⟩

/-! The environment. -/

theorem deliverFrame_inv {s : State} {p : PortId} (f : Frame) (hs : MachineInv s)
    (hp : p.toNat < s.params.nPorts) : MachineInv (deliverFrame p f s) :=
  hs.withIngress_portSet _ hp

/-- Port 0 exists in every block, so the reset value of LAST_DISP is legal; the channels stay. -/
theorem resetBlock_inv {s : State} (hs : MachineInv s) : MachineInv (resetBlock s) where
  camWf := by simp [resetBlock, State.resetWith, Cam.wf]
  adminMasked := BitVec.zero_and
  dispLegal := rfl
  dispPort := (hasPort_eq_true _ _).2 (nPorts_pos _)
  noPort q hq := by
    obtain ⟨-, hingress, hegress⟩ := hs.noPort q hq
    exact ⟨portGet_replicate _ _, hingress, hegress⟩

/-! The frame step. -/

theorem acceptFrame_inv {s : State} {p : PortId} (hs : MachineInv s)
    (hp : p.toNat < s.params.nPorts) : MachineInv (acceptFrame p s) :=
  (hs.withIngress_portSet (portGet s.ingress p).tail hp).of_invFields rfl

theorem learn_inv {s : State} {p : PortId} (m : Mac) (hs : MachineInv s)
    (hp : p.toNat < s.params.nPorts) : MachineInv (learn m p s) := by
  rw [learn_frame]
  exact (hs.withCam (learn_wf hs.camWf hp)).of_invFields rfl

theorem afterLearn_inv {s : State} {p : PortId} (h : Header) (hs : MachineInv s)
    (hp : p.toNat < s.params.nPorts) : MachineInv (afterLearn s p h) :=
  learn_inv h.src (acceptFrame_inv hs hp) hp

theorem raiseDrop_inv {s : State} {p : PortId} (d : Disposition) (hs : MachineInv s)
    (hp : p.toNat < s.params.nPorts) : MachineInv (raiseDrop d p s) := by
  have hdisp := hs.withLastDisp d hp
  rcases raiseDrop_cases d p s with h | h <;> rw [h] <;> exact hdisp.of_invFields rfl

/-- A learned address is behind a port that exists (10_state.md R33). -/
theorem camLookup_lt_nPorts {c : Params} {cam : Cam} {m : Mac} {q : PortId} (hw : Cam.wf c cam)
    (h : camLookup cam m = some q) : q.toNat < c.nPorts := by
  obtain ⟨e, he, rfl⟩ := Option.map_eq_some_iff.1 h
  obtain ⟨-, -, hbounds⟩ := hw
  exact (hbounds e (camFind?_mem he).1).2

/-- Every admitted port exists. -/
theorem admitted_lt_nPorts {s : State} {p o : PortId} {h : Header} (hw : Cam.wf s.params s.cam)
    (ho : o ∈ (frameWork s p h).admitted) : o.toNat < s.params.nPorts := by
  obtain ⟨hcand, -, -⟩ := mem_admit.1 ho
  rcases mem_candidates.1 hcand with hknown | ⟨-, hlt, -⟩
  · obtain ⟨-, hlookup, -⟩ := selectMode_unicast.1 hknown
    exact camLookup_lt_nPorts hw hlookup
  · exact hlt

/-- A forwarded frame leaves the egress channels of ports that do not exist. -/
theorem forward_egress_noPort {s : State} {q : PortId} (p : PortId) (raw : Frame) (h : Header)
    (hw : Cam.wf s.params s.cam) (hq : s.params.hasPort q = false) :
    portGet (forward p raw h s).egress q = portGet s.egress q := by
  have hnot : q ∉ (frameWork s p h).admitted := fun hmem => by
    rw [(hasPort_eq_true _ _).2 (admitted_lt_nPorts hw hmem)] at hq
    exact Bool.noConfusion hq
  rw [forward_egress, if_neg hnot, List.append_nil]

theorem forward_inv {s : State} {p : PortId} (raw : Frame) (h : Header) (hs : MachineInv s)
    (hp : p.toNat < s.params.nPorts) : MachineInv (forward p raw h s) := by
  rw [forward_frame]
  have hegress := hs.withEgress fun q hq => forward_egress_noPort p raw h hs.camWf hq
  exact (hegress.withLastDisp (workDisp (frameWork s p h)) hp).of_invFields rfl

/-- A frame class keeps the invariant, if its ingress port exists. -/
theorem exec_frame_inv {s t : State} {i : Instr} {p : PortId} {raw : Frame}
    (hs : MachineInv s) (hi : anyFrame i = some (p, raw)) (hp : p.toNat < s.params.nPorts)
    (ht : exec i s = .next t) : MachineInv t := by
  rcases exec_frame_cases hi ht with ⟨d, rfl⟩ | ⟨h, rfl⟩
  · exact raiseDrop_inv d (acceptFrame_inv hs hp) hp
  · exact forward_inv raw h (afterLearn_inv h hs hp) (by simpa using hp)

/-! The host transactions. -/

/-- The rows that fix all 13 bits write no PORT_CFG register. -/
theorem exactRow_ne_wrPortCfg : ∀ row ∈ hostRowsLow ++ hostRowsMiddle ++ hostRowsHigh.take 4,
    ∀ t d p x, row.2 t d ≠ .wrPortCfg p x := by
  simp [hostRowsLow, hostRowsMiddle, hostRowsHigh]

/-- A decoded write of PORT_CFG[p] is of a port that exists (30_encoding.md R64). -/
theorem decodeHost_wrPortCfg_lt {c : Params} {r : HostReq} {p : PortId} {x : Word}
    (h : decodeHost c r = .wrPortCfg p x) : p.toNat < c.nPorts := by
  cases hm : c.mapsAddr r.addr with
  | false => rw [decodeHost_unmapped hm] at h; cases h
  | true =>
    obtain ⟨row, hr, hx, hd⟩ := decodeHost_mapped hm
    rw [h] at hd
    rcases row_cases hr hx with ⟨hexact, -⟩ | ⟨hrow, -⟩ | ⟨hrow, -⟩ | ⟨hrow, -, -, -, hlt⟩
    · exact absurd hd.symm (exactRow_ne_wrPortCfg row hexact _ _ _ _)
    · rw [hrow] at hd; cases hd
    · rw [hrow] at hd; cases hd
    · rw [hrow] at hd; cases hd; exact hlt

/-- The effect of a host transaction keeps the invariant, if it writes no PORT_CFG register of a port
that does not exist. -/
theorem hostEffect_inv {s u : State} {i : Instr} (hs : MachineInv s)
    (hi : ∀ p x, i = .wrPortCfg p x → p.toNat < s.params.nPorts) (hu : HostEffect i s u) :
    MachineInv u := by
  cases hu with
  | quiet => exact hs
  | flush b => exact (hs.withCam (camFlush_wf s)).of_invFields rfl
  | admin d => exact hs.withAdminDown (by rw [BitVec.and_assoc, BitVec.and_self])
  | port p x _ hport => exact hs.withPorts_portSet _ (hi p x hport)
  | ctrl | status | tpid | mode | index => exact hs.of_invFields rfl

/-- A decoded host transaction keeps the invariant. -/
theorem exec_decodeHost_inv {s t : State} {r : HostReq} (hs : MachineInv s)
    (ht : exec (decodeHost s.params r) s = .next t) : MachineInv t := by
  obtain ⟨a, u, rfl, hu⟩ := host_cases (decodeHost_anyFrame s.params r) ht
  exact (hostEffect_inv hs (fun p x hi => decodeHost_wrPortCfg_lt hi) hu).of_invFields rfl

/-! The step. -/

theorem step_inv {s t : State} (hs : MachineInv s) (ht : step s = .next t) :
    MachineInv t := by
  rcases step_cases ht with ⟨-, rfl⟩ | ⟨e, rest, -, hcase⟩
  · exact hs
  have hrest : MachineInv (s.withSchedule rest) := hs.of_invFields rfl
  rcases hcase with ⟨r, -, hx⟩ | ⟨p, f, -, rfl⟩ | ⟨p, raw, -, hhead, hx⟩ | ⟨p, -, -, rfl⟩ | ⟨-, rfl⟩
  · exact exec_decodeHost_inv hrest hx
  · split
    · next hp => exact deliverFrame_inv f hrest ((hasPort_eq_true _ _).1 hp)
    · exact hrest
  · obtain ⟨-, hp, -⟩ := enabledHead_some hhead
    exact exec_frame_inv hrest (decodeFrame_anyFrame _ _ _ _) hp hx
  · exact hrest
  · exact resetBlock_inv hrest

/-- Settles O9: each case of a step is a composition of updates that keep the invariant. -/
theorem stepKeepsInv : Obligations.StepKeepsInv :=
  fun _ _ hs ht => step_inv hs ht

end Sys2Proof.Machine
end

