-- ==== Sys2Proof/Proofs/Locking.lean ====
section
/-! PROOFS. What ENABLE locks and what it stops: the port table, TPID and MODE of a block that runs, and
everything but the ingress channels of one that does not. -/

namespace Sys2Proof.Machine

/-- The two states have the same port table, TPID and MODE, the fields that ENABLE locks (10_state.md
R16). -/
def SameLocked (s t : State) : Prop :=
  t.ports = s.ports ∧ t.marker = s.marker ∧ t.exitCheckEn = s.exitCheckEn

/-- No frame class writes a locked field, enabled or not. -/
theorem exec_frame_sameLocked {i : Instr} {p : PortId} {raw : Frame} {s t : State}
    (hi : anyFrame i = some (p, raw)) (ht : exec i s = .next t) : SameLocked s t := by
  rcases exec_frame_cases hi ht with ⟨d, rfl⟩ | ⟨h, rfl⟩
  · simp [SameLocked]
  · simp [SameLocked]

/-- While ENABLE is 1, a host transaction writes no locked field: the effects that would need ENABLE to
be 0. -/
theorem hostEffect_sameLocked {i : Instr} {s u : State} (he : s.enable = true)
    (hu : HostEffect i s u) : SameLocked s u := by
  cases hu with
  | tpid _ h0 | mode _ h0 | port _ _ h0 _ => rw [he] at h0; cases h0
  | quiet | ctrl | flush | status | admin | index => exact ⟨rfl, rfl, rfl⟩

/-- Settles O32, by the cases of a step. -/
theorem runningConfigurationIsLocked : Obligations.RunningConfigurationIsLocked := by
  intro s t he hreset ht
  change SameLocked s t
  rcases step_cases ht with ⟨-, rfl⟩ | ⟨e, rest, hs, hcase⟩
  · exact ⟨rfl, rfl, rfl⟩
  rcases hcase with ⟨r, -, hx⟩ | ⟨p, f, -, rfl⟩ | ⟨p, raw, -, -, hx⟩ | ⟨p, -, -, rfl⟩ | ⟨rfl, -⟩
  · obtain ⟨a, u, rfl, hu⟩ := host_cases (decodeHost_anyFrame s.params r) hx
    have hlocked : SameLocked s u := hostEffect_sameLocked (s := s.withSchedule rest) he hu
    exact hlocked
  · split <;> exact ⟨rfl, rfl, rfl⟩
  · exact exec_frame_sameLocked (s := s.withSchedule rest) (decodeFrame_anyFrame _ _ _ _) hx
  · exact ⟨rfl, rfl, rfl⟩
  · exact absurd (by rw [hs]; rfl) hreset

/-- A block that is not enabled takes no frame (20_memory.md R48). -/
theorem enabledHead_disabled {s : State} (he : s.enable = false) (p : PortId) :
    enabledHead s p = none := by
  simp [enabledHead, he]

/-- Settles O33, by the cases of a step: a delivery changes an ingress channel only, and no frame step is
enabled. -/
theorem disabledBlockIsQuiet : Obligations.DisabledBlockIsQuiet := by
  intro s t he hreset htransact ht
  rcases step_cases ht with ⟨-, rfl⟩ | ⟨e, rest, hs, hcase⟩
  · rfl
  rcases hcase with ⟨r, rfl, -⟩ | ⟨p, f, -, rfl⟩ | ⟨p, raw, -, hhead, -⟩ | ⟨p, -, -, rfl⟩ | ⟨rfl, -⟩
  · exact absurd (by rw [hs]; rfl) (htransact r)
  · split <;> rfl
  · rw [enabledHead_disabled he] at hhead; cases hhead
  · rfl
  · exact absurd (by rw [hs]; rfl) hreset

end Sys2Proof.Machine
end

