-- ==== Sys2Proof/Proofs/Codec.lean ====
section
/-! PROOFS. What the decoder's answers are: well-formed, and encoded back to the request they came from;
and what Decode reads from a frame built from its fields. -/

namespace Sys2Proof.Machine

/-! Frames. -/

/-- The decoder's test of the marker (30_encoding.md R62) is the classes' own (R57, R59). -/
theorem bearsMarker_of_be16 {marker : BitVec 16} {raw : Frame} (hlen : ¬ raw.length < 14)
    (hm : be16 raw 12 = marker) : raw.bearsMarker marker = true := by
  rw [bearsMarker_eq (by omega), decide_eq_true hm]

theorem bearsMarker_of_be16_ne {marker : BitVec 16} {raw : Frame} (hlen : ¬ raw.length < 14)
    (hm : be16 raw 12 ≠ marker) : raw.bearsMarker marker = false := by
  rw [bearsMarker_eq (by omega), decide_eq_false hm]

theorem groupBitIs_groupBit {raw : Frame} (hlen : ¬ raw.length < 14) :
    raw.groupBitIs (groupBit raw) = true := by
  rw [groupBitIs_eq (by omega), decide_eq_true rfl]

/-- Each test of 30_encoding.md R62, in its order, makes its class's condition true. -/
theorem decodeFrame_wellFormed {c : Params} (marker : BitVec 16) {p : PortId} (raw : Frame)
    (hp : c.hasPort p = true) : (decodeFrame c marker p raw).wellFormed c marker = true := by
  unfold decodeFrame
  split
  · next hmax => simp [Instr.wellFormed, hp, hmax]
  split
  · next hmax hrunt => simp [Instr.wellFormed, hp, hrunt]
  next hmax hlen =>
  have hgroup := groupBitIs_groupBit hlen
  split
  · next hm =>
    have htag := bearsMarker_of_be16 hlen hm
    split
    · next hshort => simp [Instr.wellFormed, hp, hshort, htag]
    · next hlong =>
      cases hg : groupBit raw <;> rw [hg] at hgroup <;>
        simp [Instr.wellFormed, hp, htag, hgroup, Nat.le_of_not_lt hmax, Nat.le_of_not_lt hlong]
  · next hm =>
    have htag := bearsMarker_of_be16_ne hlen hm
    cases hg : groupBit raw <;> rw [hg] at hgroup <;>
      simp [Instr.wellFormed, hp, htag, hgroup, Nat.le_of_not_lt hmax, Nat.le_of_not_lt hlen]

/-- A frame class encodes to its frame (30_encoding.md R56, R57). -/
theorem encode_frame {i : Instr} {p : PortId} {raw : Frame} (hi : anyFrame i = some (p, raw)) :
    encode i = .frame p raw := by
  cases i <;> simp only [anyFrame, forwardedFrame, reduceCtorEq, Option.some.injEq,
    Prod.mk.injEq] at hi <;> obtain ⟨rfl, rfl⟩ := hi <;> rfl

/-! Host transactions: the rows that fix all 13 bits, and then every row. -/

/-- The rows of 30_encoding.md R65 that fix all 13 bits. -/
def exactRows : List (HostRow × (TWord → Word → Instr)) :=
  hostRowsLow ++ hostRowsMiddle ++ hostRowsHigh.take 4

theorem exactRow_wellFormed (c : Params) (marker : BitVec 16) (t : TWord) (d : Word) :
    ∀ row ∈ exactRows, (row.2 t d).wellFormed c marker = true := by
  intro row hrow
  fin_cases hrow <;> rfl

/-- A decoded host transaction is well-formed: what the row that matched requires is what the
instruction needs, and BUS_ERR has the address that no row matched. -/
theorem decodeHost_wellFormed (c : Params) (marker : BitVec 16) (r : HostReq) :
    (decodeHost c r).wellFormed c marker = true := by
  cases hm : c.mapsAddr r.addr with
  | false => rw [decodeHost_unmapped hm, Instr.wellFormed, tword_addr, hm]; rfl
  | true =>
    obtain ⟨row, hr, hx, hd⟩ := decodeHost_mapped hm
    rw [hd]
    rcases row_cases hr hx with ⟨hexact, -⟩ | ⟨hrow, -⟩ | ⟨hrow, -, -, -, hport⟩ |
      ⟨hrow, -, -, -, hport⟩
    · exact exactRow_wellFormed c marker _ _ row hexact
    · rw [hrow]; rfl
    · rw [hrow]; exact (hasPort_eq_true _ _).2 hport
    · rw [hrow]; exact (hasPort_eq_true _ _).2 hport

/-- Settles O2: frames by the tests of R62, transactions by the rows of R65. -/
theorem decodedInstrIsWellFormed : Obligations.DecodedInstrIsWellFormed := by
  intro c marker q hport
  cases q with
  | frame p raw => exact decodeFrame_wellFormed marker raw (hport p raw rfl)
  | host r => exact decodeHost_wellFormed c marker r

/-- The request of opcode word `t` with write data `d`: a read's is encoded as 0 (assumption log 15). -/
def requestOf (t : TWord) (d : Word) : HostReq :=
  ⟨t.getLsbD 12, t.extractLsb' 0 12, if t.getLsbD 12 then d else 0⟩

theorem tword_rw (r : HostReq) : r.tword.getLsbD 12 = r.rw := by
  refine (BitVec.getLsbD_append (x := BitVec.ofBool r.rw) (y := r.addr)).trans ?_
  simp

theorem requestOf_tword (r : HostReq) (d : Word) :
    requestOf r.tword d = ⟨r.rw, r.addr, if r.rw then d else 0⟩ := by
  rw [requestOf, tword_rw, tword_addr]

theorem encode_exactRow (t : TWord) (d : Word) :
    ∀ row ∈ exactRows, encode (row.2 t d) = .host (requestOf row.1.pattern d) := by
  intro row hrow
  fin_cases hrow <;> rfl

theorem counterAddr_toNat : ∀ k : BitVec 2, (counterAddr k).toNat = 0x30 + 4 * k.toNat := by decide

/-- The encoder undoes a row that matches (30_encoding.md R64, R65). -/
theorem encode_row {c : Params} {t : TWord} {row : HostRow × (TWord → Word → Instr)} (d : Word)
    (hr : row ∈ hostRows) (hx : row.1.hits c t = true) :
    encode (row.2 t d) = .host (requestOf t d) := by
  have hbit : t.getLsbD 12 = decide (4096 ≤ t.toNat) := by
    have := t.isLt
    simp [BitVec.getLsbD, Nat.testBit_eq_decide_div_mod_eq]
    omega
  have haddr := addrField_toNat t
  have hport := portField_toNat t
  have hcounter := counterField_toNat t
  rcases row_cases hr hx with ⟨hexact, hn⟩ | ⟨hrow, h1, h2, h3⟩ | ⟨hrow, h1, h2, h3, -⟩ |
    ⟨hrow, h1, h2, h3, -⟩
  · rw [encode_exactRow t d row hexact, BitVec.eq_of_toNat_eq hn]
  · have ha : counterAddr (counterField t) = t.extractLsb' 0 12 :=
      BitVec.eq_of_toNat_eq (by rw [counterAddr_toNat]; omega)
    have hw : t.getLsbD 12 = true := by rw [hbit, decide_eq_true_iff]; omega
    rw [requestOf, hw, ← ha, hrow]; rfl
  · have ha : portCfgAddr (portField t) = t.extractLsb' 0 12 :=
      BitVec.eq_of_toNat_eq (by rw [portCfgAddr_toNat]; omega)
    have hw : t.getLsbD 12 = false := by rw [hbit, decide_eq_false_iff_not]; omega
    rw [requestOf, hw, ← ha, hrow]; rfl
  · have ha : portCfgAddr (portField t) = t.extractLsb' 0 12 :=
      BitVec.eq_of_toNat_eq (by rw [portCfgAddr_toNat]; omega)
    have hw : t.getLsbD 12 = true := by rw [hbit, decide_eq_true_iff]; omega
    rw [requestOf, hw, ← ha, hrow]; rfl

/-- What the encoder gives back of a transaction. -/
theorem encode_decodeHost (c : Params) (r : HostReq) : encode (decodeHost c r) =
    .host ⟨r.rw, r.addr, if r.rw && c.mapsAddr r.addr then r.wdata else 0⟩ := by
  cases hm : c.mapsAddr r.addr with
  | false => rw [decodeHost_unmapped hm, encode, tword_rw, tword_addr, Bool.and_false]; rfl
  | true =>
    obtain ⟨row, hr, hx, hd⟩ := decodeHost_mapped hm
    rw [hd, encode_row r.wdata hr hx, requestOf_tword, Bool.and_true]

/-- Settles O3: frames whole, transactions by the row that matched. -/
theorem encodeRecoversRequest : Obligations.EncodeRecoversRequest := by
  intro c marker
  exact ⟨fun p raw => encode_frame (decodeFrame_anyFrame c marker p raw), encode_decodeHost c⟩

/-! The header's fields. -/

theorem tciExit_append (exit : ExitId) (vid : VlanId) : tciExit (exit ++ vid) = exit := by
  refine BitVec.eq_of_getLsbD_eq fun i hi => ?_
  rw [tciExit, BitVec.getLsbD_extractLsb', BitVec.getLsbD_append]
  simp [hi]

theorem tciVlan_append (exit : ExitId) (vid : VlanId) : tciVlan (exit ++ vid) = vid := by
  refine BitVec.eq_of_getLsbD_eq fun i hi => ?_
  rw [tciVlan, BitVec.getLsbD_extractLsb', BitVec.getLsbD_append]
  simp [hi]

/-- The two bytes of a 16-bit field, read back at their place (20_memory.md R42). -/
theorem be16_be16Bytes (pre post : Frame) (v : BitVec 16) :
    be16 (pre ++ be16Bytes v ++ post) pre.length = v := by
  simp [be16, byteAt, be16Bytes, append_bytes_eq]

/-- The six bytes of a MAC address, appended in wire order, are the address. -/
theorem append_macByte (m : Mac) : macByte m 0 ++ macByte m 1 ++ macByte m 2 ++ macByte m 3 ++
    macByte m 4 ++ macByte m 5 = m := by
  simp only [macByte]
  rw [BitVec.extractLsb'_append_extractLsb'_eq_extractLsb' (by omega),
    BitVec.extractLsb'_append_extractLsb'_eq_extractLsb' (by omega),
    BitVec.extractLsb'_append_extractLsb'_eq_extractLsb' (by omega),
    BitVec.extractLsb'_append_extractLsb'_eq_extractLsb' (by omega),
    BitVec.extractLsb'_append_extractLsb'_eq_extractLsb' (by omega)]
  exact BitVec.extractLsb'_eq_self

/-- A MAC address, read back at its place (00_scope.md R12). -/
theorem macAt_macBytes (pre post : Frame) (m : Mac) :
    macAt (pre ++ macBytes m ++ post) pre.length = m := by
  rw [← append_macByte m]
  simp [macAt, byteAt, macBytes, append_macByte]

@[simp] theorem length_macBytes (m : Mac) : (macBytes m).length = 6 := rfl

@[simp] theorem length_be16Bytes (v : BitVec 16) : (be16Bytes v).length = 2 := rfl

/-- Destination and source of a frame that begins with them (30_encoding.md R56). -/
theorem macAt_addresses (dst src : Mac) (rest : Frame) :
    macAt (macBytes dst ++ macBytes src ++ rest) 0 = dst ∧
    macAt (macBytes dst ++ macBytes src ++ rest) 6 = src := by
  constructor
  · simpa using macAt_macBytes [] (macBytes src ++ rest) dst
  · simpa using macAt_macBytes (macBytes dst) rest src

/-- What Decode (40_frame_codec.md R69) answers for a tagged frame. -/
theorem parseHeader_tagged {marker : BitVec 16} {raw : Frame} (hlen : 18 ≤ raw.length)
    (hm : be16 raw 12 = marker) : parseHeader marker raw =
      some ⟨macAt raw 0, macAt raw 6, true, be16 raw 14, be16 raw 16⟩ := by
  rw [parseHeader, if_neg (by omega), if_pos hm, if_neg (by omega)]

/-- What Decode answers for an untagged frame. -/
theorem parseHeader_untagged {marker : BitVec 16} {raw : Frame} (hlen : 14 ≤ raw.length)
    (hm : be16 raw 12 ≠ marker) : parseHeader marker raw =
      some ⟨macAt raw 0, macAt raw 6, false, 0, be16 raw 12⟩ := by
  rw [parseHeader, if_neg (by omega), if_neg hm]

/-- The tagged form of a frame: its header is the fields it was built from. -/
theorem parseHeader_build_tagged (marker etype : BitVec 16) (dst src : Mac) (exit : ExitId)
    (vid : VlanId) (payload : Frame) :
    parseHeader marker (macBytes dst ++ macBytes src ++ encodeTag marker exit vid ++
      be16Bytes etype ++ payload) = some ⟨dst, src, true, exit ++ vid, etype⟩ := by
  have hmarker := be16_be16Bytes (macBytes dst ++ macBytes src)
    (be16Bytes (exit ++ vid) ++ be16Bytes etype ++ payload) marker
  have htci := be16_be16Bytes (macBytes dst ++ macBytes src ++ be16Bytes marker)
    (be16Bytes etype ++ payload) (exit ++ vid)
  have hetype := be16_be16Bytes (macBytes dst ++ macBytes src ++ be16Bytes marker ++
    be16Bytes (exit ++ vid)) payload etype
  obtain ⟨hdst, hsrc⟩ := macAt_addresses dst src
    (be16Bytes marker ++ be16Bytes (exit ++ vid) ++ be16Bytes etype ++ payload)
  simp only [List.append_assoc, List.length_append, length_macBytes, length_be16Bytes,
    Nat.reduceAdd] at hmarker htci hetype hdst hsrc
  simp only [encodeTag, List.append_assoc]
  rw [parseHeader_tagged (by simp; omega) hmarker, hdst, hsrc, htci, hetype]

/-- The untagged form, whose ethertype is not the marker. -/
theorem parseHeader_build_untagged {marker etype : BitVec 16} (dst src : Mac) (payload : Frame)
    (hne : etype ≠ marker) :
    parseHeader marker (macBytes dst ++ macBytes src ++ be16Bytes etype ++ payload) =
      some ⟨dst, src, false, 0, etype⟩ := by
  have hetype := be16_be16Bytes (macBytes dst ++ macBytes src) payload etype
  obtain ⟨hdst, hsrc⟩ := macAt_addresses dst src (be16Bytes etype ++ payload)
  simp only [List.append_assoc, List.length_append, length_macBytes, Nat.reduceAdd]
    at hetype hdst hsrc ⊢
  rw [parseHeader_untagged (by simp; omega) (by rwa [hetype]), hdst, hsrc, hetype]

/-- Settles O6, by reading each field at its place. -/
theorem headerRoundTrip : Obligations.HeaderRoundTrip := by
  intro marker etype dst src exit vid payload
  exact ⟨parseHeader_build_tagged marker etype dst src exit vid payload,
    tciExit_append exit vid, tciVlan_append exit vid, parseHeader_build_untagged dst src payload⟩

end Sys2Proof.Machine
end

