-- ==== Sys2Proof/Proofs/HostTransactions.lean ====
section
/-! PROOFS. What a host read, a host write and BUS_ERR do, said by the request that the instruction
encodes to. -/

namespace Sys2Proof.Machine

/-! BUS_ERR. -/

theorem exec_busErr (t : TWord) (s : State) :
    exec (.busErr t) s = .next (s.withResponse (some ⟨0, true⟩)) := rfl

/-- Settles O28: each of the four kinds of address is outside the register map. -/
theorem busErrorTransactions : Obligations.BusErrorTransactions := by
  intro s r haddr
  have hunmapped : s.params.mapsAddr r.addr = false := by
    have hports := nPorts_le s.params
    rw [← Bool.not_eq_true, mapsAddr_iff]
    omega
  exact ⟨decodeHost_unmapped hunmapped, exec_busErr _ s⟩

/-! Reads. -/

/-- A read, BUS_ERR among them, puts a response on the bus and does nothing else (20_memory.md R47). -/
theorem exec_read {i : Instr} {q : HostReq} {s t : State} (hi : encode i = .host q)
    (hrw : q.rw = false) (ht : exec i s = .next t) : ∃ a, t = s.withResponse (some a) := by
  cases i <;> cases hi
  case rdLastDisp =>
    change execRdLastDisp s = _ at ht
    unfold execRdLastDisp at ht
    split at ht
    · cases ht
    · injection ht with ht; exact ⟨_, ht.symm⟩
  case rdId | rdCtrl | rdStatus | rdTpid | rdNports | rdCamsize | rdAdminDown | rdMode | rdCamIndex |
      rdCamDataLo | rdCamDataHi | rdRxCount | rdTxCount | rdDropCount | rdLearnFailCount | rdPortCfg |
      busErr =>
    injection ht with ht; exact ⟨_, ht.symm⟩
  all_goals cases hrw

/-- Settles O30: what is decoded from a read encodes back to a read. -/
theorem hostReadsChangeNothing : Obligations.HostReadsChangeNothing :=
  fun s _ r hrw ht => exec_read (encode_decodeHost s.params r) hrw ht

/-! Writes. -/

theorem exec_wrCtrl (d : Word) (s : State) :
    exec (.wrCtrl d) s = .next ((writeCtrl d s).withResponse (some ⟨0, false⟩)) := rfl

theorem exec_wrTpid (d : Word) (s : State) :
    exec (.wrTpid d) s = lockedWrite (fun t => t.withMarker (d.extractLsb' 0 16)) s := rfl

theorem exec_wrMode (d : Word) (s : State) :
    exec (.wrMode d) s = lockedWrite (fun t => t.withExitCheckEn (d.getLsbD 0)) s := rfl

theorem exec_wrPortCfg (p : PortId) (d : Word) (s : State) :
    exec (.wrPortCfg p d) s =
      lockedWrite (fun t => t.withPorts (portSet t.ports p (portCfgOf d))) s := rfl

theorem writeCtrl_cam (d : Word) (s : State) :
    (writeCtrl d s).cam = if d.getLsbD 1 then [] else s.cam := by
  unfold writeCtrl
  split <;> rfl

/-- A locked write leaves the learning table, if what it writes does, and answers rdata 0. -/
theorem lockedWrite_next {effect : State → State} {s t : State} (hcam : (effect s).cam = s.cam)
    (ht : lockedWrite effect s = .next t) :
    t.cam = s.cam ∧ ∃ b, t.response = some ⟨0, b⟩ := by
  cases he : s.enable with
  | false => rw [lockedWrite_disabled _ he] at ht; cases ht; exact ⟨hcam, _, rfl⟩
  | true => rw [lockedWrite_enabled _ he] at ht; cases ht; exact ⟨rfl, _, rfl⟩

/-- A write, BUS_ERR among them, answers rdata 0, and all but a write of CTRL leave the learning
table. -/
theorem exec_write_of_ne_wrCtrl {i : Instr} {q : HostReq} {s t : State} (hi : encode i = .host q)
    (hrw : q.rw = true) (hctrl : ∀ d, i ≠ .wrCtrl d) (ht : exec i s = .next t) :
    t.cam = s.cam ∧ ∃ b, t.response = some ⟨0, b⟩ := by
  cases i <;> cases hi
  case wrCtrl d => exact absurd rfl (hctrl d)
  case wrTpid d => rw [exec_wrTpid] at ht; exact lockedWrite_next rfl ht
  case wrMode d => rw [exec_wrMode] at ht; exact lockedWrite_next rfl ht
  case wrPortCfg p d => rw [exec_wrPortCfg] at ht; exact lockedWrite_next rfl ht
  case wrId | wrStatus | wrNports | wrCamsize | wrAdminDown | wrCamIndex | wrCamDataLo | wrCamDataHi |
      wrLastDisp | wrCounter | busErr =>
    injection ht with ht; subst ht; exact ⟨rfl, _, rfl⟩
  all_goals cases hrw

/-! The flush. -/

/-- A transaction flushes exactly when what it decodes to does: CTRL is mapped, so the write data that
decides is kept. -/
theorem flushes_recovered (c : Params) (r : HostReq) :
    flushes (.transact ⟨r.rw, r.addr, if r.rw && c.mapsAddr r.addr then r.wdata else 0⟩) =
      flushes (.transact r) := by
  cases hm : c.mapsAddr r.addr with
  | true => cases hw : r.rw <;> simp [flushes, hw]
  | false =>
    have ha : (r.addr == 0x004) = false := by
      rw [beq_eq_false_iff_ne]
      intro ha
      rw [ha, show c.mapsAddr 0x004 = true from Laws.EncodesInMap.low_mapped c 1 (by decide)] at hm
      cases hm
    simp only [flushes, ha, Bool.and_false, Bool.false_and]

/-- Only a write of CTRL flushes (45_host_interface.md R121). -/
theorem flushes_eq_false {i : Instr} {q : HostReq} (hi : encode i = .host q)
    (hctrl : ∀ d, i ≠ .wrCtrl d) : flushes (.transact q) = false := by
  have hcounter : ∀ k : BitVec 2, (counterAddr k == 0x004) = false := by decide
  have hport : ∀ p : PortId, (portCfgAddr p == 0x004) = false := by decide
  cases i <;> cases hi
  case wrCtrl d => exact absurd rfl (hctrl d)
  case wrCounter k d => simp only [flushes, writeAt, hcounter k, Bool.and_false, Bool.false_and]
  case wrPortCfg p d => simp only [flushes, writeAt, hport p, Bool.and_false, Bool.false_and]
  case busErr t => simp [flushes]
  all_goals rfl

/-- What a write does to the learning table, and what it answers. -/
theorem exec_write_cam {i : Instr} {q : HostReq} {s t : State} (hi : encode i = .host q)
    (hrw : q.rw = true) (ht : exec i s = .next t) :
    t.cam = (if flushes (.transact q) then [] else s.cam) ∧ ∃ b, t.response = some ⟨0, b⟩ := by
  by_cases hctrl : ∃ d, i = .wrCtrl d
  · obtain ⟨d, rfl⟩ := hctrl
    cases hi
    rw [exec_wrCtrl] at ht
    cases ht
    exact ⟨writeCtrl_cam d s, _, rfl⟩
  · have hne : ∀ d, i ≠ .wrCtrl d := fun d h => hctrl ⟨d, h⟩
    rw [flushes_eq_false hi hne]
    exact exec_write_of_ne_wrCtrl hi hrw hne ht

/-! What no transaction reaches. -/

/-- The fields that the frame pipeline and the environment write, and no host transaction does
(60_exceptions.md R142), with the model's own schedule and parameters. -/
def frameFields (s : State) : LastDisp × Word × Word × Word × Word × PerPort (List Frame) ×
    PerPort (List Frame) × List Event × Params :=
  (s.lastDisp, s.rxCount, s.txCount, s.dropCount, s.learnFailCount, s.ingress, s.egress, s.schedule,
    s.params)

theorem hostEffect_frameFields {i : Instr} {s u : State} (hu : HostEffect i s u) :
    frameFields u = frameFields s := by
  cases hu <;> rfl

theorem exec_host_frameFields {i : Instr} {s t : State} (hi : anyFrame i = none)
    (ht : exec i s = .next t) : frameFields t = frameFields s := by
  obtain ⟨a, u, rfl, hu⟩ := host_cases hi ht
  have hfields : frameFields u = frameFields s := hostEffect_frameFields hu
  exact hfields

/-- What a host transaction does to the learning table, and what a write answers. -/
theorem exec_decodeHost_cam {s t : State} {r : HostReq}
    (ht : exec (decodeHost s.params r) s = .next t) :
    t.cam = (if flushes (.transact r) then [] else s.cam) ∧
    (r.rw = true → ∃ b, t.response = some ⟨0, b⟩) := by
  have henc := encode_decodeHost s.params r
  cases hrw : r.rw with
  | false =>
    obtain ⟨a, rfl⟩ := exec_read henc hrw ht
    exact ⟨by simp [flushes, hrw], fun h => by cases h⟩
  | true =>
    obtain ⟨hcam, hresponse⟩ := exec_write_cam henc hrw ht
    rw [flushes_recovered] at hcam
    exact ⟨hcam, fun _ => hresponse⟩

/-- Settles O31: the fields of the frame pipeline by the effects of a transaction, the table by whether
it is a read, a write of CTRL or another write. -/
theorem hostCannotReachFrameState : Obligations.HostCannotReachFrameState := by
  intro s t r ht
  have hfields := exec_host_frameFields (decodeHost_anyFrame s.params r) ht
  simp only [frameFields, Prod.mk.injEq] at hfields
  obtain ⟨hdisp, hrx, htx, hdrop, hfail, hingress, hegress, hschedule, hparams⟩ := hfields
  exact ⟨hdisp, hrx, htx, hdrop, hfail, hingress, hegress, hschedule, hparams, exec_decodeHost_cam ht⟩

end Sys2Proof.Machine
end

