-- ==== Sys2Proof/Proofs/FrameSteps.lean ====
section
/-! PROOFS. What a frame step writes: no configuration, the end of the egress channels only, and nothing
but the sent bytes that depends on the ethertype or the payload. -/

namespace Sys2Proof.Machine

/-! Configuration. -/

/-- The configuration, and the response, the schedule and the parameters. -/
def configFields (s : State) : Bool × BitVec 16 × Word × Bool × BitVec 16 × PerPort PortCfg ×
    Option HostResponse × List Event × Params :=
  (s.enable, s.marker, s.adminDown, s.exitCheckEn, s.camIndex, s.ports, s.response, s.schedule,
    s.params)

/-- From `s` to `t` no configuration is written and no sticky bit is cleared. -/
structure KeepsConfig (s t : State) : Prop where
  config : configFields t = configFields s
  learnFail : s.learnFail = true → t.learnFail = true
  malformed : s.malformed = true → t.malformed = true
  oversize : s.oversize = true → t.oversize = true

theorem KeepsConfig.trans {s t u : State} (h : KeepsConfig s t) (h' : KeepsConfig t u) :
    KeepsConfig s u :=
  ⟨h'.config.trans h.config, h'.learnFail ∘ h.learnFail, h'.malformed ∘ h.malformed,
    h'.oversize ∘ h.oversize⟩

theorem acceptFrame_keepsConfig (p : PortId) (s : State) : KeepsConfig s (acceptFrame p s) :=
  ⟨rfl, id, id, id⟩

theorem learn_keepsConfig (m : Mac) (p : PortId) (s : State) : KeepsConfig s (learn m p s) := by
  rcases learn_cases m p s with ⟨_, _, h⟩ | ⟨_, _, _, h⟩ | ⟨_, _, h⟩ <;> rw [h]
  · exact ⟨rfl, id, id, id⟩
  · exact ⟨rfl, id, id, id⟩
  · exact ⟨rfl, fun _ => rfl, id, id⟩

theorem raiseDrop_keepsConfig (d : Disposition) (p : PortId) (s : State) :
    KeepsConfig s (raiseDrop d p s) := by
  rcases raiseDrop_cases d p s with h | h <;> rw [h]
  · exact ⟨rfl, id, id, fun _ => rfl⟩
  · exact ⟨rfl, id, fun _ => rfl, id⟩

theorem forward_keepsConfig (p : PortId) (raw : Frame) (h : Header) (s : State) :
    KeepsConfig s (forward p raw h s) := by
  rw [forward_frame]
  constructor <;> simp [configFields]

theorem exec_frame_keepsConfig {i : Instr} {p : PortId} {raw : Frame} {s t : State}
    (hi : anyFrame i = some (p, raw)) (ht : exec i s = .next t) : KeepsConfig s t := by
  have haccept := acceptFrame_keepsConfig p s
  rcases exec_frame_cases hi ht with ⟨d, rfl⟩ | ⟨h, rfl⟩
  · exact haccept.trans (raiseDrop_keepsConfig d p _)
  · exact (haccept.trans (learn_keepsConfig h.src p _)).trans (forward_keepsConfig p raw h _)

/-- Settles O58: each operation of a frame step keeps the configuration. -/
theorem framesWriteNoConfiguration : Obligations.FramesWriteNoConfiguration := by
  intro s t i p raw hi ht
  obtain ⟨hconfig, hfail, hmalformed, hoversize⟩ := exec_frame_keepsConfig hi ht
  simp only [configFields, Prod.mk.injEq] at hconfig
  obtain ⟨henable, hmarker, hadmin, hexit, hindex, hports, hresponse, hschedule, hparams⟩ := hconfig
  exact ⟨henable, hmarker, hadmin, hexit, hindex, hports, hresponse, hschedule, hparams, hfail,
    hmalformed, hoversize⟩

/-! Egress. -/

@[simp] theorem raiseDrop_egress (d : Disposition) (p : PortId) (s : State) :
    (raiseDrop d p s).egress = s.egress := by
  rcases raiseDrop_cases d p s with h | h <;> rw [h] <;> rfl

/-- A frame step appends to egress channels. -/
theorem exec_frame_egress_grows {i : Instr} {p : PortId} {raw : Frame} {s t : State} (o : PortId)
    (hi : anyFrame i = some (p, raw)) (ht : exec i s = .next t) :
    portGet s.egress o <+: portGet t.egress o := by
  rcases exec_frame_cases hi ht with ⟨d, rfl⟩ | ⟨h, rfl⟩
  · simp
  · rw [forward_egress, afterLearn_egress]
    exact List.prefix_append _ _

/-- A host transaction sends nothing. -/
theorem exec_host_egress {i : Instr} {s t : State} (hi : anyFrame i = none)
    (ht : exec i s = .next t) : t.egress = s.egress := by
  obtain ⟨a, u, rfl, hu⟩ := host_cases hi ht
  cases hu <;> rfl

/-- Settles O59, by the cases of a step: only a frame step writes an egress channel. -/
theorem egressOnlyGrows : Obligations.EgressOnlyGrows := by
  intro s t o ht
  rcases step_cases ht with ⟨-, rfl⟩ | ⟨e, rest, -, hcase⟩
  · exact List.prefix_rfl
  rcases hcase with ⟨r, -, hx⟩ | ⟨p, f, -, rfl⟩ | ⟨p, raw, -, -, hx⟩ | ⟨p, -, -, rfl⟩ | ⟨-, rfl⟩
  · rw [exec_host_egress (decodeHost_anyFrame _ _) hx]
    exact List.prefix_rfl
  · split <;> exact List.prefix_rfl
  · exact exec_frame_egress_grows (s := s.withSchedule rest) o (decodeFrame_anyFrame _ _ _ _) hx
  · exact List.prefix_rfl
  · exact List.prefix_rfl

/-! The payload. -/

/-- Two headers that agree but for the ethertype. -/
structure Header.SameAddressing (h h' : Header) : Prop where
  dst : h'.dst = h.dst
  src : h'.src = h.src
  tagged : h'.tagged = h.tagged
  tci : h'.tci = h.tci

/-- Learn and the working registers read no ethertype. -/
theorem afterLearn_sameAddressing {h h' : Header} (hh : h.SameAddressing h') (s : State) (p : PortId) :
    afterLearn s p h' = afterLearn s p h := by
  rw [afterLearn, afterLearn, hh.src]

theorem frameWork_sameAddressing {h h' : Header} (hh : h.SameAddressing h') (s : State) (p : PortId) :
    frameWork s p h' = frameWork s p h := by
  simp only [frameWork, effectiveVlan, effectiveExit, hh.dst, hh.src, hh.tagged, hh.tci]

/-- Beside the egress channels, what forwarding leaves depends on the addressing alone. -/
theorem forward_sameAddressing {h h' : Header} (hh : h.SameAddressing h') (p : PortId)
    (raw raw' : Frame) (s : State) :
    { forward p raw' h' s with egress := (forward p raw h s).egress } = forward p raw h s := by
  have hwork := frameWork_sameAddressing hh s p
  rw [forward_frame p raw' h', forward_txCount, hwork, ← forward_txCount p raw h]
  exact (forward_frame p raw h s).symm

/-- As many frames go to each port, whatever the bytes. -/
theorem forward_egress_length {h h' : Header} (hh : h.SameAddressing h') (p : PortId)
    (raw raw' : Frame) (s : State) (o : PortId) :
    (portGet (forward p raw' h' s).egress o).length = (portGet (forward p raw h s).egress o).length := by
  rw [forward_egress, forward_egress, frameWork_sameAddressing hh]
  split <;> simp only [List.length_append, List.length_singleton]

/-- Settles O60: both frames are learned alike and have the same working registers. -/
theorem payloadIsOpaque : Obligations.PayloadIsOpaque := by
  intro s t t' i i' p raw raw' h h' hi hi' hparse hparse' hdst hsrc htagged htci ht ht'
  have hh : h.SameAddressing h' := ⟨hdst, hsrc, htagged, htci⟩
  rw [exec_forwarded hi] at ht
  rw [exec_forwarded hi'] at ht'
  obtain ⟨g, hg, rfl⟩ := forwardFrame_next ht
  obtain ⟨g', hg', rfl⟩ := forwardFrame_next ht'
  cases hparse.symm.trans hg
  cases hparse'.symm.trans hg'
  rw [afterLearn_sameAddressing hh]
  exact ⟨forward_sameAddressing hh p raw raw' _, forward_egress_length hh p raw raw' _⟩

end Sys2Proof.Machine
end

