-- ==== Sys2Proof/Proofs/Runs.lean ====
section
/-! PROOFS. What a step does at each kind of event, and that a run from reset never stops. -/

namespace Sys2Proof.Machine

/-! The step, by its next event. -/

theorem step_transact {s : State} {r : HostReq} {rest : List Event}
    (hs : s.schedule = .transact r :: rest) :
    step s = exec (decodeHost s.params r) (s.withSchedule rest) := by
  rw [step, hs]; rfl

theorem step_deliver {s : State} {p : PortId} {f : Frame} {rest : List Event}
    (hp : p.toNat < s.params.nPorts) (hs : s.schedule = .deliver p f :: rest) :
    step s = .next (deliverFrame p f (s.withSchedule rest)) := by
  have hport : s.params.hasPort p = true := (hasPort_eq_true _ _).2 hp
  rw [step, hs]
  simp only [fetch, State.withSchedule_params, hport, if_true]

theorem step_serve_some {s : State} {p : PortId} {raw : Frame} {rest : List Event}
    (hs : s.schedule = .serve p :: rest) (hhead : enabledHead s p = some raw) :
    step s = exec (decodeFrame s.params s.marker p raw) (s.withSchedule rest) := by
  have hhead' : enabledHead (s.withSchedule rest) p = some raw := hhead
  rw [step, hs]
  simp only [fetch, hhead', State.withSchedule_params, State.withSchedule_marker]

theorem step_serve_none {s : State} {p : PortId} {rest : List Event}
    (hs : s.schedule = .serve p :: rest) (hhead : enabledHead s p = none) :
    step s = .next (s.withSchedule rest) := by
  have hhead' : enabledHead (s.withSchedule rest) p = none := hhead
  rw [step, hs]
  simp only [fetch, hhead']

theorem step_reset {s : State} {rest : List Event} (hs : s.schedule = .reset :: rest) :
    step s = .next (resetBlock (s.withSchedule rest)) := by
  rw [step, hs]; rfl

theorem step_idle {s : State} (hs : s.schedule = []) : step s = .next s := by
  rw [step, hs]

/-! The head that a frame step takes (20_memory.md R48). -/

theorem enabledHead_waiting {s : State} {p : PortId} {raw : Frame} {waiting : List Frame}
    (he : s.enable = true) (hp : p.toNat < s.params.nPorts)
    (hq : portGet s.ingress p = raw :: waiting) : enabledHead s p = some raw := by
  rw [enabledHead, he, (hasPort_eq_true _ _).2 hp, hq]; rfl

theorem enabledHead_empty {s : State} {p : PortId} (hq : portGet s.ingress p = []) :
    enabledHead s p = none := by
  rw [enabledHead, hq, List.head?_nil, ite_self]

/-- Settles O11. -/
theorem stepRunsHostTransaction : Obligations.StepRunsHostTransaction :=
  fun _ _ _ hs => step_transact hs

/-- Settles O12: the frame step is enabled and takes the head. -/
theorem stepRunsServedFrame : Obligations.StepRunsServedFrame :=
  fun _ _ _ _ _ he hp hq hs => step_serve_some hs (enabledHead_waiting he hp hq)

/-- Settles O13: in both cases the frame step takes no head. -/
theorem noFrameStepUnlessEnabled : Obligations.NoFrameStepUnlessEnabled := by
  refine ⟨fun s p rest hs hoff => step_serve_none hs ?_, fun s => step_idle⟩
  rcases hoff with he | hq
  · exact enabledHead_disabled he p
  · exact enabledHead_empty hq

/-- Settles O14: the step is the one update of `deliverFrame`. -/
theorem deliveryAppendsToOneChannel : Obligations.DeliveryAppendsToOneChannel := by
  intro s p f rest hp hs
  refine ⟨_, step_deliver hp hs, ?_, fun q hq => ?_, rfl⟩
  · exact portGet_portSet_same _ _ _
  · exact portGet_portSet_other _ _ (Ne.symm hq)

/-! Every instruction that a step runs goes on. -/

theorem lockedWrite_goesOn (effect : State → State) (s : State) :
    ∃ t, lockedWrite effect s = .next t := by
  cases he : s.enable with
  | false => exact ⟨_, lockedWrite_disabled effect he⟩
  | true => exact ⟨_, lockedWrite_enabled effect he⟩

/-- A host transaction goes on, if LAST_DISP holds no reserved code (93_implementation_defined.md
U10). -/
theorem exec_host_goesOn {i : Instr} {s : State} (hi : anyFrame i = none)
    (hd : dispReserved s.lastDisp.disp = false) : ∃ t, exec i s = .next t := by
  cases i
  case frameOversize | frameRunt | frameTaggedRunt | frameTaggedUcast | frameTaggedMcast |
      frameUntaggedUcast | frameUntaggedMcast => cases hi
  case wrTpid d => rw [exec_wrTpid]; exact lockedWrite_goesOn _ s
  case wrMode d => rw [exec_wrMode]; exact lockedWrite_goesOn _ s
  case wrPortCfg p d => rw [exec_wrPortCfg]; exact lockedWrite_goesOn _ s
  case rdLastDisp =>
    refine ⟨answer (lastDispWord s.lastDisp) s, ?_⟩
    change execRdLastDisp s = _
    rw [execRdLastDisp, hd]; rfl
  all_goals exact ⟨_, rfl⟩

/-- A decoded frame of a forwarded class is long enough for its header (20_memory.md R38). -/
theorem parseHeader_decodeFrame {c : Params} {marker : BitVec 16} {p : PortId} {raw : Frame}
    (hi : forwardedFrame (decodeFrame c marker p raw) = some (p, raw)) :
    ∃ h, parseHeader marker raw = some h := by
  unfold decodeFrame at hi
  split at hi
  · cases hi
  split at hi
  · cases hi
  next hlen =>
  split at hi
  · next hm =>
    split at hi
    · cases hi
    · next hlong => exact ⟨_, parseHeader_tagged (Nat.le_of_not_lt hlong) hm⟩
  · next hm => exact ⟨_, parseHeader_untagged (Nat.le_of_not_lt hlen) hm⟩

theorem exec_decodeFrame_goesOn (c : Params) (p : PortId) (raw : Frame) (s : State) :
    ∃ t, exec (decodeFrame c s.marker p raw) s = .next t := by
  rcases anyFrame_cases (decodeFrame_anyFrame c s.marker p raw) s with ⟨d, -, -, hx⟩ | ⟨hi, hx⟩
  · exact ⟨_, hx⟩
  · obtain ⟨h, hh⟩ := parseHeader_decodeFrame hi
    rw [hx, forwardFrame, hh]
    exact ⟨_, rfl⟩

/-- A state that meets the invariant has a next state. -/
theorem step_goesOn {s : State} (hs : MachineInv s) : ∃ t, step s = .next t := by
  cases hsched : s.schedule with
  | nil => exact ⟨s, step_idle hsched⟩
  | cons e rest =>
    cases e with
    | transact r =>
      rw [step_transact hsched]
      exact exec_host_goesOn (decodeHost_anyFrame _ _) hs.dispLegal
    | deliver p f =>
      by_cases hp : s.params.hasPort p
      · exact ⟨_, step_deliver ((hasPort_eq_true _ _).1 hp) hsched⟩
      · exact ⟨_, by rw [step, hsched]; rfl⟩
    | serve p =>
      cases hhead : enabledHead s p with
      | none => exact ⟨_, step_serve_none hsched hhead⟩
      | some raw =>
        rw [step_serve_some hsched hhead]
        exact exec_decodeFrame_goesOn s.params p raw (s.withSchedule rest)
    | reset => exact ⟨_, step_reset hsched⟩

/-! Runs. -/

theorem run_succ {M : Host.Core} {s u : M.State} (h : M.step s = .next u) (k : Nat) :
    M.run (k + 1) s = M.run k u := by
  rw [Host.Core.run, h]

/-- A run from a state that meets the invariant goes on and keeps it. -/
theorem run_goesOn (k : Nat) {s : State} (hs : MachineInv s) :
    ∃ t : State, Host.Core.run core k s = .next t ∧ MachineInv t := by
  induction k generalizing s with
  | zero => exact ⟨s, rfl, hs⟩
  | succ k ih =>
    obtain ⟨u, hu⟩ := step_goesOn hs
    obtain ⟨t, hrun, ht⟩ := ih (step_inv hs hu)
    exact ⟨t, (run_succ (M := core) hu k).trans hrun, ht⟩

/-- The state after reset meets the invariant, whatever the parameters (70_reset_and_hazards.md
R157). -/
theorem resetWith_inv (c : Params) : MachineInv (State.resetWith c) where
  camWf := by simp [State.resetWith, Cam.wf]
  adminMasked := BitVec.zero_and
  dispLegal := rfl
  dispPort := (hasPort_eq_true _ _).2 (nPorts_pos _)
  noPort _ _ := ⟨portGet_replicate _ _, portGet_replicate _ _, portGet_replicate _ _⟩

/-- Settles O10, by induction on the number of steps: the invariant gives the next step, and the step
keeps it. -/
theorem everyRunFromResetGoesOn : Obligations.EveryRunFromResetGoesOn :=
  fun c _ k => run_goesOn k ((resetWith_inv c).of_invFields rfl)

end Sys2Proof.Machine
end

