-- ==== Sys2Proof/Proofs/RoundTrip.lean ====
section
/-! PROOFS. The decoder undoes the encoder: each frame class is decoded exactly under its condition, each
row of the table at its own address, and a placed word as the transaction that it holds. -/

namespace Sys2Proof.Machine

/-! Frame classes (30_encoding.md R62). -/

/-- When a frame is of the class that the instruction names: the class's own test holds, and the tests
before it do not (30_encoding.md R62). -/
def frameCondition (c : Params) (marker : BitVec 16) : Instr → Prop
  | .frameOversize _ raw => c.maxFrameBytes < raw.length
  | .frameRunt _ raw => raw.length < 14
  | .frameTaggedRunt _ raw => 14 ≤ raw.length ∧ raw.length < 18 ∧ be16 raw 12 = marker
  | .frameTaggedUcast _ raw => 18 ≤ raw.length ∧ raw.length ≤ c.maxFrameBytes ∧
      be16 raw 12 = marker ∧ groupBit raw = false
  | .frameTaggedMcast _ raw => 18 ≤ raw.length ∧ raw.length ≤ c.maxFrameBytes ∧
      be16 raw 12 = marker ∧ groupBit raw = true
  | .frameUntaggedUcast _ raw => 14 ≤ raw.length ∧ raw.length ≤ c.maxFrameBytes ∧
      be16 raw 12 ≠ marker ∧ groupBit raw = false
  | .frameUntaggedMcast _ raw => 14 ≤ raw.length ∧ raw.length ≤ c.maxFrameBytes ∧
      be16 raw 12 ≠ marker ∧ groupBit raw = true
  | _ => False

/-- The decoded class's condition holds. -/
theorem decodeFrame_frameCondition (c : Params) (marker : BitVec 16) (p : PortId) (raw : Frame) :
    frameCondition c marker (decodeFrame c marker p raw) := by
  unfold decodeFrame
  split
  · next hmax => exact hmax
  split
  · next hrunt => exact hrunt
  next hmax hlen =>
  have hmax' : raw.length ≤ c.maxFrameBytes := Nat.le_of_not_lt hmax
  have hlen' : 14 ≤ raw.length := Nat.le_of_not_lt hlen
  split
  · next hm =>
    split
    · next hshort => exact ⟨hlen', hshort, hm⟩
    next hlong =>
    split
    · next hg => exact ⟨Nat.le_of_not_lt hlong, hmax', hm, hg⟩
    · next hg => exact ⟨Nat.le_of_not_lt hlong, hmax', hm, Bool.eq_false_of_not_eq_true hg⟩
  · next hm =>
    split
    · next hg => exact ⟨hlen', hmax', hm, hg⟩
    · next hg => exact ⟨hlen', hmax', hm, Bool.eq_false_of_not_eq_true hg⟩

/-- A class whose condition holds is the one decoded: the length bounds put each class past the tests
before its own, as `MAX_FRAME_BYTES` is at least 18. -/
theorem decodeFrame_of_frameCondition {c : Params} {marker : BitVec 16} {i : Instr} {p : PortId}
    {raw : Frame} (hi : anyFrame i = some (p, raw)) (hc : frameCondition c marker i) :
    decodeFrame c marker p raw = i := by
  have hmax := maxFrameBytes_ge c
  cases i
  case frameOversize => cases hi; exact if_pos hc
  case frameRunt =>
    cases hi
    change raw.length < 14 at hc
    rw [decodeFrame, if_neg (by omega), if_pos hc]
  case frameTaggedRunt =>
    cases hi
    obtain ⟨hlen, hshort, hm⟩ := hc
    rw [decodeFrame, if_neg (by omega), if_neg (by omega), if_pos hm, if_pos hshort]
  case frameTaggedUcast | frameTaggedMcast =>
    cases hi
    obtain ⟨hlen, hroom, hm, hg⟩ := hc
    rw [decodeFrame, if_neg (by omega), if_neg (by omega), if_pos hm, if_neg (by omega), hg]; rfl
  case frameUntaggedUcast | frameUntaggedMcast =>
    cases hi
    obtain ⟨hlen, hroom, hm, hg⟩ := hc
    rw [decodeFrame, if_neg (by omega), if_neg (by omega), if_neg hm, hg]; rfl
  all_goals cases hc

theorem decodeFrame_eq_iff {c : Params} {marker : BitVec 16} {i : Instr} {p : PortId} {raw : Frame}
    (hi : anyFrame i = some (p, raw)) :
    decodeFrame c marker p raw = i ↔ frameCondition c marker i :=
  ⟨fun h => h ▸ decodeFrame_frameCondition c marker p raw, decodeFrame_of_frameCondition hi⟩

/-- The instructions of a frame are the seven classes. -/
theorem mem_frameClasses {i : Instr} {p : PortId} {raw : Frame} (hi : anyFrame i = some (p, raw)) :
    i ∈ [Instr.frameOversize p raw, .frameRunt p raw, .frameTaggedRunt p raw,
      .frameTaggedUcast p raw, .frameTaggedMcast p raw, .frameUntaggedUcast p raw,
      .frameUntaggedMcast p raw] := by
  cases i <;> cases hi <;> simp

/-- Settles O5: the seven classes' conditions, and the classes are all the instructions of a frame. -/
theorem frameClassesPartition : Obligations.FrameClassesPartition := by
  intro c marker p raw
  exact ⟨decodeFrame_eq_iff rfl, decodeFrame_eq_iff rfl, decodeFrame_eq_iff rfl,
    decodeFrame_eq_iff rfl, decodeFrame_eq_iff rfl, decodeFrame_eq_iff rfl, decodeFrame_eq_iff rfl,
    mem_frameClasses (decodeFrame_anyFrame c marker p raw)⟩

/-- A well-formed frame term meets its class's condition: the marker and the I/G bit of
30_encoding.md R59 and R60 are those that the decoder reads. -/
theorem frameCondition_of_wellFormed {c : Params} {marker : BitVec 16} {i : Instr} {p : PortId}
    {raw : Frame} (hi : anyFrame i = some (p, raw)) (hw : i.wellFormed c marker = true) :
    frameCondition c marker i := by
  cases i <;> cases hi <;>
    simp only [Instr.wellFormed, Bool.and_eq_true, decide_eq_true_eq, Bool.not_eq_true'] at hw
  case frameOversize | frameRunt => exact hw.2
  case frameTaggedRunt =>
    obtain ⟨⟨-, hshort⟩, hm⟩ := hw
    have hlen := bearsMarker_length hm
    rw [bearsMarker_eq hlen, decide_eq_true_iff] at hm
    exact ⟨hlen, hshort, hm⟩
  all_goals
    obtain ⟨⟨⟨⟨-, hlen⟩, hroom⟩, hm⟩, hg⟩ := hw
    rw [bearsMarker_eq (by omega)] at hm
    rw [groupBitIs_eq (by omega), decide_eq_true_iff] at hg
    exact ⟨hlen, hroom, by simpa using hm, hg⟩

/-! Host transactions (30_encoding.md R64, R65). -/

/-- A write of a counter, which the one row of R65 with two open bits decodes. -/
theorem decodeHost_wrCounter (c : Params) (k : BitVec 2) (d : Word) :
    decodeHost c (writeAt (counterAddr k) d) = .wrCounter k d := by
  have hk : k = 0 ∨ k = 1 ∨ k = 2 ∨ k = 3 := by revert k; decide
  rcases hk with rfl | rfl | rfl | rfl <;> exact Eq.trans (decodeHost_at _ rfl rfl) rfl

/-- The opcode word is its `rw` bit and its address. -/
theorem tword_fields (t : TWord) (d : Word) :
    HostReq.tword ⟨t.getLsbD 12, t.extractLsb' 0 12, d⟩ = t := by
  have hrw : BitVec.ofBool (t.getLsbD 12) = t.extractLsb' 12 1 := by
    ext i hi
    obtain rfl : i = 0 := by omega
    simp
  rw [tword_mk, hrw, BitVec.extractLsb'_append_extractLsb'_eq_extractLsb' (by omega)]
  exact BitVec.extractLsb'_eq_self

/-- Each row's encoding is decoded by that row, and BUS_ERR by none. -/
theorem decode_encode_host {c : Params} {marker : BitVec 16} {i : Instr} (hi : anyFrame i = none)
    (hw : i.wellFormed c marker = true) : decode c marker (encode i) = i := by
  cases i
  case frameOversize | frameRunt | frameTaggedRunt | frameTaggedUcast | frameTaggedMcast |
      frameUntaggedUcast | frameUntaggedMcast => cases hi
  case wrCounter k d => exact decodeHost_wrCounter c k d
  case rdPortCfg p => exact decodeHost_rdPortCfg ((hasPort_eq_true c p).1 hw) 0
  case wrPortCfg p d => exact decodeHost_wrPortCfg ((hasPort_eq_true c p).1 hw) d
  case busErr t =>
    have hm : c.mapsAddr (t.extractLsb' 0 12) = false := by simpa [Instr.wellFormed] using hw
    exact (decodeHost_unmapped hm).trans (congrArg Instr.busErr (tword_fields t 0))
  -- The write data stays a variable, so the row is found by the opcode word alone.
  case wrId | wrCtrl | wrStatus | wrTpid | wrNports | wrCamsize | wrAdminDown | wrMode | wrCamIndex |
      wrCamDataLo | wrCamDataHi | wrLastDisp => exact Eq.trans (decodeHost_at _ rfl rfl) rfl
  -- The other reads have no operand.
  all_goals rfl

/-- Settles O1: frames by their classes' conditions, transactions by the rows. -/
theorem decodeEncodeRoundTrip : Obligations.DecodeEncodeRoundTrip := by
  intro c marker i hw
  cases hi : anyFrame i with
  | none => exact decode_encode_host hi hw
  | some x =>
    rw [encode_frame hi]
    exact decodeFrame_of_frameCondition hi (frameCondition_of_wellFormed hi hw)

/-! Inputs written out from the spec (95_test_vectors.md). -/

/-- Settles O4: the transactions are encodings of well-formed instructions, and the frames meet their
classes' conditions in every block. -/
theorem specWordsDecode : Obligations.SpecWordsDecode := by
  intro c p
  have hmax := maxFrameBytes_ge c
  refine ⟨decodeEncodeRoundTrip c 0x8200 .rdId rfl,
    decodeEncodeRoundTrip c 0x8200 (.wrTpid 0x8200) rfl,
    decodeEncodeRoundTrip c 0x8200 (.wrPortCfg 0 0x00140000) ((hasPort_eq_true c 0).2 (nPorts_pos c)),
    decodeHost_unmapped rfl, decodeHost_unmapped rfl, ?_⟩
  refine ⟨decodeFrame_of_frameCondition rfl ?_, decodeFrame_of_frameCondition rfl ?_,
    decodeFrame_of_frameCondition rfl ?_, decodeFrame_of_frameCondition rfl ?_,
    decodeFrame_of_frameCondition rfl ?_, decodeFrame_of_frameCondition rfl ?_,
    decodeFrame_of_frameCondition rfl ?_⟩
  case refine_1 => exact (by decide : 3 < 14)
  case refine_2 | refine_4 => exact ⟨by decide, by decide, by decide⟩
  all_goals exact ⟨by decide, le_trans (by decide) hmax, by decide, by decide⟩

/-! Numbered words (assumption log 11). -/

theorem decodeTableWord_eq_some {nbits w : Nat} {i : Instr} (h : decodeTableWord nbits w = some i) :
    ∃ r, HostReq.ofWord (w % 2 ^ nbits) = .ok r ∧ decodeHost Config.params r = i := by
  unfold decodeTableWord at h
  split at h
  · next r hr => exact ⟨r, hr, Option.some.inj h⟩
  · cases h

theorem scheduleWord_of_ok {nbits w : Nat} {r : HostReq} (events : List Event)
    (h : HostReq.ofWord (w % 2 ^ nbits) = .ok r) :
    scheduleWord nbits w events = .transact r :: events := by
  rw [scheduleWord, h]

/-- Settles O15: the placed word's transaction is the next event, and running it leaves the schedule as
it was before the word was placed. -/
theorem placedWordRunsAsDecoded : Obligations.PlacedWordRunsAsDecoded := by
  intro s nbits w i hparams hi
  obtain ⟨r, hr, rfl⟩ := decodeTableWord_eq_some hi
  have hnext : (s.withFetchWord nbits w).schedule = .transact r :: s.schedule :=
    scheduleWord_of_ok s.schedule hr
  have hrun := step_transact hnext
  rwa [show (s.withFetchWord nbits w).params = Config.params from hparams] at hrun

end Sys2Proof.Machine
end

