-- ==== Sys2Proof/Proofs/Rewrite.lean ====
section
/-! PROOFS. What Rewrite does to a frame in each of its cases, and that every frame sent to a trunk port
bears the marker. -/

namespace Sys2Proof.Machine

/-! The inserted tag (40_frame_codec.md R71). -/

/-- The first byte of a TCI holds the exit id and the top of the VLAN id (30_encoding.md R58). -/
theorem tci_highByte (exit : ExitId) (vid : VlanId) :
    (exit ++ vid).extractLsb' 8 8 = exit ++ vid.extractLsb' 8 4 := by
  refine BitVec.eq_of_getLsbD_eq fun i hi => ?_
  simp only [BitVec.getLsbD_extractLsb', BitVec.getLsbD_append]
  rcases Nat.lt_or_ge i 4 with h | h
  · simp [h, hi, show 8 + i < 12 by omega]
  · simp [hi, show ¬ i < 4 by omega, show ¬ 8 + i < 12 by omega, show 8 + i - 12 = i - 4 by omega]

theorem tci_lowByte (exit : ExitId) (vid : VlanId) :
    (exit ++ vid).extractLsb' 0 8 = vid.extractLsb' 0 8 :=
  BitVec.extractLsb'_append_eq_of_add_le (by omega)

theorem encodeTag_bytes (marker : BitVec 16) (exit : ExitId) (vid : VlanId) :
    encodeTag marker exit vid = [marker.extractLsb' 8 8, marker.extractLsb' 0 8,
      exit ++ vid.extractLsb' 8 4, vid.extractLsb' 0 8] := by
  rw [encodeTag, be16Bytes, be16Bytes, tci_highByte, tci_lowByte]
  rfl

@[simp] theorem length_encodeTag (marker : BitVec 16) (exit : ExitId) (vid : VlanId) :
    (encodeTag marker exit vid).length = 4 := rfl

/-! The lengths (R73, R75). -/

theorem length_insertTag (marker : BitVec 16) (vlan : Option VlanId) (exit : Option ExitId)
    (raw : Frame) : (insertTag marker vlan exit raw).length = raw.length + 4 := by
  simp only [insertTag, List.length_append, List.length_take, List.length_drop, length_encodeTag]
  omega

theorem length_stripTag {raw : Frame} (hlen : 16 ≤ raw.length) :
    (stripTag raw).length = raw.length - 4 := by
  simp only [stripTag, List.length_append, List.length_take, List.length_drop]
  omega

/-- Settles O46, case by case of Rewrite. -/
theorem rewriteCases : Obligations.RewriteCases := by
  intro marker vlan exit raw
  have hinsert : insertTag marker vlan exit raw = raw.take 12 ++ _ ++ raw.drop 12 :=
    congrArg (raw.take 12 ++ · ++ raw.drop 12)
      (encodeTag_bytes marker (exit.getD 0xF) (vlan.getD 0xFFF))
  exact ⟨fun _ => ⟨hinsert, length_insertTag marker vlan exit raw⟩, rfl,
    fun hlen => ⟨rfl, length_stripTag hlen⟩, rfl⟩

/-! The marker (R77). -/

/-- Decode answers only for a frame that holds the MAC pair and two bytes more, and calls it tagged
exactly when these are the marker (R69). -/
theorem parseHeader_some {marker : BitVec 16} {raw : Frame} {h : Header}
    (hh : parseHeader marker raw = some h) :
    ¬ raw.length < 14 ∧ (h.tagged = true ↔ be16 raw 12 = marker) := by
  unfold parseHeader at hh
  split at hh
  · cases hh
  next hlen =>
  refine ⟨hlen, ?_⟩
  split at hh
  · next hm =>
    split at hh
    · cases hh
    · cases hh; exact iff_of_true rfl hm
  · next hm => cases hh; exact iff_of_false Bool.false_ne_true hm

/-- The inserted tag stands right behind the MAC pair and begins with the marker (R71, R73). -/
theorem be16_insertTag (marker : BitVec 16) (vlan : Option VlanId) (exit : Option ExitId)
    {raw : Frame} (hlen : 12 ≤ raw.length) : be16 (insertTag marker vlan exit raw) 12 = marker := by
  have hmarker := be16_be16Bytes (raw.take 12)
    (be16Bytes (exit.getD 0xF ++ vlan.getD 0xFFF) ++ raw.drop 12) marker
  rw [List.length_take_of_le hlen] at hmarker
  simpa only [insertTag, encodeTag, List.append_assoc] using hmarker

/-- Settles O47: towards a trunk port a tagged frame keeps the marker that Decode found, and an untagged
one is given it. -/
theorem trunkFramesBearTheMarker : Obligations.TrunkFramesBearTheMarker := by
  intro s raw h w o hh htrunk
  obtain ⟨hlen, htag⟩ := parseHeader_some hh
  rw [egressFrame, htrunk]
  cases ht : h.tagged with
  | true => exact bearsMarker_of_be16 hlen (htag.1 ht)
  | false =>
    have hsent : ¬ (insertTag s.marker w.vlan w.exit raw).length < 14 := by
      rw [length_insertTag]; omega
    exact bearsMarker_of_be16 hsent (be16_insertTag s.marker w.vlan w.exit (by omega))

end Sys2Proof.Machine
end

