-- ==== Sys2Proof/Proofs/AdminDown.lean ====
section
/-! PROOFS. What being administratively down means for a port: no frame is admitted to it, so it is
sent nothing, and a frame whose only candidate it was is FILTERED. -/

namespace Sys2Proof.Machine

/-! Admission (44_forwarding.md R96). -/

/-- No mode admits a frame to a port that is down. -/
theorem adminDown_not_admitted {s : State} {p o : PortId} {h : Header}
    (hdown : isAdminDown s o = true) : o ∉ (frameWork s p h).admitted := fun hmem => by
  obtain ⟨-, hup, -⟩ := mem_admit.1 hmem
  exact Bool.noConfusion (hdown.symm.trans hup)

/-- A known destination is the only port that can be admitted: nothing falls back to a flood (R95). -/
theorem eq_of_admitted_unicastKnown {s : State} {p q o : PortId} {h : Header}
    (hmode : (frameWork s p h).mode = .unicastKnown q) (ho : o ∈ (frameWork s p h).admitted) :
    o = q := by
  obtain ⟨hcand, -, -⟩ := mem_admit.1 ho
  have hsel : selectMode s p h.dst = .unicastKnown q := hmode
  rw [hsel] at hcand
  exact List.mem_singleton.1 hcand

theorem admitted_eq_nil_of_adminDown {s : State} {p q : PortId} {h : Header}
    (hmode : (frameWork s p h).mode = .unicastKnown q) (hdown : isAdminDown s q = true) :
    (frameWork s p h).admitted = [] :=
  List.eq_nil_iff_forall_not_mem.2 fun _ ho =>
    adminDown_not_admitted hdown (eq_of_admitted_unicastKnown hmode ho ▸ ho)

/-! Sending (R100, R101). -/

theorem forward_egress_of_not_admitted {s : State} {p o : PortId} {h : Header} (raw : Frame)
    (ho : o ∉ (frameWork s p h).admitted) :
    portGet (forward p raw h s).egress o = portGet s.egress o := by
  rw [forward_egress, if_neg ho, List.append_nil]

/-- A frame that no port is admitted to is sent nowhere and ends as FILTERED. -/
theorem forward_of_admitted_nil {s : State} {p : PortId} {h : Header} (raw : Frame)
    (hnone : (frameWork s p h).admitted = []) :
    (forward p raw h s).egress = s.egress ∧ (forward p raw h s).lastDisp = ⟨3, p⟩ := by
  constructor
  · exact portArray_ext fun o =>
      forward_egress_of_not_admitted raw (hnone ▸ List.not_mem_nil)
  · have hdisp : workDisp (frameWork s p h) = .filtered := if_pos hnone
    rw [forward_frame, hdisp]
    rfl

/-- The state that a frame of a forwarded class goes on to, by the header that it is known to have. -/
theorem exec_forwarded_next {i : Instr} {p : PortId} {raw : Frame} {h : Header} {s t : State}
    (hi : forwardedFrame i = some (p, raw)) (hh : parseHeader s.marker raw = some h)
    (ht : exec i s = .next t) : t = forward p raw h (afterLearn s p h) := by
  rw [exec_forwarded hi] at ht
  obtain ⟨h', hh', rfl⟩ := forwardFrame_next ht
  rw [hh] at hh'
  cases hh'
  rfl

/-- Settles O52: Learn keeps ADMIN_DOWN, so the admission after it refuses the ports that are down, and
the one candidate of a known destination with them. -/
theorem adminDownPortIsSentNothing : Obligations.AdminDownPortIsSentNothing := by
  intro s t i p raw hi ht
  refine ⟨fun o hdown => ?_, fun h q hf hh hmode hdown => ?_⟩
  · rcases exec_frame_cases hi ht with ⟨d, rfl⟩ | ⟨h, rfl⟩
    · rw [raiseDrop_egress, acceptFrame_egress]
    · have hdown' : isAdminDown (afterLearn s p h) o = true := by rwa [isAdminDown_afterLearn]
      rw [forward_egress_of_not_admitted raw (adminDown_not_admitted hdown'), afterLearn_egress]
  · have hdown' : isAdminDown (afterLearn s p h) q = true := by rwa [isAdminDown_afterLearn]
    have hfiltered := forward_of_admitted_nil raw (admitted_eq_nil_of_adminDown hmode hdown')
    rwa [← exec_forwarded_next hf hh ht, afterLearn_egress] at hfiltered

end Sys2Proof.Machine
end

