-- ==== Sys2Proof/Proofs/LearningTable.lean ====
section
/-! PROOFS. The learning table: what Lookup, Learn and the flush do to it, how long a learned address
stays, and what the host's read-back shows of it. -/

namespace Sys2Proof.Machine

/-! Lookup (42_learning_cam.md R83). -/

/-- In a table in canonical form, an entry is listed exactly when it is valid at some index. -/
theorem mem_iff_camEntry? {cam : Cam} (hw : cam.Pairwise (fun a b => a.index < b.index))
    {e : CamCell} : e ∈ cam ↔ ∃ k, camEntry? cam k = some e :=
  ⟨fun he => ⟨e.index, (camEntry?_eq_some hw).2 ⟨he, rfl⟩⟩, fun ⟨_, hk⟩ => (camEntry?_mem hk).1⟩

theorem camLookup_eq_some {cam : Cam} (hw : cam.Pairwise (fun a b => a.mac ≠ b.mac)) {m : Mac}
    {p : PortId} : camLookup cam m = some p ↔ ∃ e ∈ cam, e.mac = m ∧ e.port = p := by
  simp only [camLookup, Option.map_eq_some_iff, camFind?_eq_some hw, and_assoc]

theorem camLookup_eq_none {cam : Cam} {m : Mac} :
    camLookup cam m = none ↔ ∀ e ∈ cam, e.mac ≠ m := by
  rw [camLookup, Option.map_eq_none_iff, camFind?_none]

/-- Settles O41: Lookup speaks of the listed entries, and those are the valid ones. -/
theorem lookupFindsTheEntry : Obligations.LookupFindsTheEntry := by
  rintro c cam m ⟨hindex, hmac, -⟩
  refine ⟨fun p => ?_, ?_⟩
  · simp only [camLookup_eq_some hmac, mem_iff_camEntry? hindex, ← exists_and_right]
    exact exists_comm
  · simp only [camLookup_eq_none, mem_iff_camEntry? hindex, forall_exists_index]
    exact forall_comm

/-! The flush (R84). -/

/-- A table with no valid entry is not full: entry 0 exists in every block. -/
theorem camFull_of_nil {s : State} (hs : s.cam = []) : camFull s = false := by
  rw [← Bool.not_eq_true, camFull_iff, hs]
  intro hfull
  cases hfull 0 (camEntries_pos s.params)

/-- Settles O40: the flushed table lists no entry. -/
theorem flushEmptiesTable : Obligations.FlushEmptiesTable :=
  fun _ => ⟨fun _ => rfl, fun _ => rfl, camFull_of_nil rfl, rfl⟩

/-! Learn (R82), under the condition of each of its cases. -/

theorem learn_known {s : State} {m : Mac} {e : CamCell} (p : PortId)
    (he : camFind? s.cam m = some e) : learn m p s = s.withCam (camMove m p s.cam) := by
  rw [learn, he]

theorem learn_free {s : State} {m : Mac} {k : Nat} (p : PortId) (hm : camFind? s.cam m = none)
    (hk : camFree? s.params s.cam = some k) :
    learn m p s = s.withCam (camWrite ⟨k, m, p⟩ s.cam) := by
  rw [learn, hm, hk]

theorem learn_full {s : State} {m : Mac} (p : PortId) (hm : camFind? s.cam m = none)
    (hfull : camFree? s.params s.cam = none) :
    learn m p s = (s.withLearnFail true).withLearnFailCount (s.learnFailCount + 1) := by
  rw [learn, hm, hfull]

/-- The free index that Learn takes is the least one. -/
theorem camFree?_eq_some {c : Params} {cam : Cam} {k : Nat} (hk : k < c.camEntries)
    (hfree : camValid cam k = false) (hleast : ∀ j, j < k → camValid cam j = true) :
    camFree? c cam = some k := by
  cases hj : camFree? c cam with
  | none =>
    rw [camFree?_none.1 hj k hk] at hfree
    cases hfree
  | some j =>
    obtain ⟨-, hjfree, hjleast⟩ := camFree?_some hj
    rcases Nat.lt_trichotomy j k with hlt | rfl | hlt
    · rw [hleast j hlt] at hjfree; cases hjfree
    · rfl
    · rw [hjleast k hlt] at hfree; cases hfree

/-- Overwriting the port of the MAC that entry `k` holds changes entry `k` only. -/
theorem camEntry?_camMove_of_mac {c : Params} {cam : Cam} {k : Nat} {e : CamCell}
    (hw : Cam.wf c cam) (hk : camEntry? cam k = some e) (p : PortId) (j : Nat) :
    camEntry? (camMove e.mac p cam) j =
      if j = k then some { e with port := p } else camEntry? cam j := by
  obtain ⟨hindex, hmac, -⟩ := hw
  obtain ⟨he, hek⟩ := camEntry?_mem hk
  rw [camEntry?_camMove]
  by_cases hj : j = k
  · subst hj
    simp only [hk, Option.map_some, if_true]
  rw [if_neg hj]
  cases hx : camEntry? cam j with
  | none => rfl
  | some x =>
    obtain ⟨hxm, hxj⟩ := camEntry?_mem hx
    have hne : x.mac ≠ e.mac := fun heq => by
      have hxe := (camFind?_eq_some hmac).2 ⟨hxm, heq⟩
      rw [(camFind?_eq_some hmac).2 ⟨he, rfl⟩] at hxe
      cases hxe
      exact hj (hxj.symm.trans hek)
    simp only [Option.map_some, if_neg hne]

/-- Settles O36, by the three cases of Learn. -/
theorem learnWritesOneEntry : Obligations.LearnWritesOneEntry := by
  intro s m p hw
  refine ⟨?_, ?_, ?_⟩
  · rintro k e hk rfl
    have hfind := (camFind?_eq_some hw.2.1).2 ⟨(camEntry?_mem hk).1, rfl⟩
    rw [learn_known p hfind]
    exact ⟨camEntry?_camMove_of_mac hw hk p, rfl⟩
  · intro k hnew hk hfree hleast
    have hslot := camFree?_eq_some hk hfree hleast
    rw [learn_free p (camFind?_none.2 hnew) hslot]
    exact ⟨camEntry?_camWrite hw (camFree?_unused hslot), rfl⟩
  · intro hnew hfull
    rw [learn_full p (camFind?_none.2 hnew) (camFree?_none.2 hfull)]
    rfl

/-! What Lookup answers after Learn (R112). -/

/-- Learn leaves what every other address looks up to. -/
theorem camLookup_learn_other {s : State} {m m' : Mac} (p : PortId) (hw : Cam.wf s.params s.cam)
    (hne : m' ≠ m) : camLookup (learn m p s).cam m' = camLookup s.cam m' := by
  rcases learn_cases m p s with ⟨e, -, h⟩ | ⟨k, hnew, hk, h⟩ | ⟨-, -, h⟩ <;> rw [h]
  · exact camLookup_camMove_other hne
  · exact (camLookup_camWrite hw (camFind?_none.1 hnew) (camFree?_unused hk) m').trans (if_neg hne)
  · rfl

/-- A learned address looks up to its new port, unless it was not known and the table was full. -/
theorem camLookup_learn_same {s : State} {m : Mac} (p : PortId) (hw : Cam.wf s.params s.cam)
    (hroom : camLookup s.cam m ≠ none ∨ camFull s = false) :
    camLookup (learn m p s).cam m = some p := by
  rcases learn_cases m p s with ⟨e, he, h⟩ | ⟨k, hnew, hk, h⟩ | ⟨hnew, hfull, h⟩
  · rw [h]
    exact camLookup_camMove_same he
  · rw [h]
    exact (camLookup_camWrite hw (camFind?_none.1 hnew) (camFree?_unused hk) m).trans (if_pos rfl)
  · rcases hroom with hknown | hfree
    · exact absurd (camLookup_eq_none.2 (camFind?_none.1 hnew)) hknown
    · rw [camFull, hfull] at hfree
      cases hfree

/-! The table after a frame (R93). -/

@[simp] theorem raiseDrop_cam (d : Disposition) (p : PortId) (s : State) :
    (raiseDrop d p s).cam = s.cam := by
  rcases raiseDrop_cases d p s with h | h <;> rw [h] <;> rfl

@[simp] theorem forward_cam (p : PortId) (raw : Frame) (h : Header) (s : State) :
    (forward p raw h s).cam = s.cam := by rw [forward_frame]; rfl

/-- A forwarded frame does to the table what Learn of its source does. -/
theorem exec_forwarded_cam {i : Instr} {p : PortId} {raw : Frame} {s t : State}
    (hi : forwardedFrame i = some (p, raw)) (ht : exec i s = .next t) :
    ∃ h, parseHeader s.marker raw = some h ∧ t.cam = (learn h.src p s).cam := by
  rw [exec_forwarded hi] at ht
  obtain ⟨h, hh, rfl⟩ := forwardFrame_next ht
  exact ⟨h, hh, by rw [forward_cam, afterLearn_cam]⟩

/-- Settles O37, by what Lookup answers after Learn of the source. -/
theorem sourceIsLearned : Obligations.SourceIsLearned := by
  intro s t i p raw hi hw ht
  obtain ⟨h, hh, hcam⟩ := exec_forwarded_cam hi ht
  rw [hcam]
  exact ⟨h, hh, camLookup_learn_same p hw, fun m hne => camLookup_learn_other p hw hne⟩

/-! The table after a step (R156). -/

/-- After a frame, an address that was learned keeps its port, or is the source and has the ingress
port. -/
theorem exec_frame_camLookup {i : Instr} {q p : PortId} {raw : Frame} {s t : State} {m : Mac}
    (hi : anyFrame i = some (q, raw)) (hw : Cam.wf s.params s.cam) (ht : exec i s = .next t)
    (hm : camLookup s.cam m = some p) :
    camLookup t.cam m = some p ∨
      ∃ h, parseHeader s.marker raw = some h ∧ h.src = m ∧ camLookup t.cam m = some q := by
  rcases anyFrame_cases hi s with ⟨d, -, -, hx⟩ | ⟨hf, -⟩
  · rw [hx] at ht
    injection ht with ht
    rw [← ht, raiseDrop_cam, acceptFrame_cam]
    exact .inl hm
  · obtain ⟨h, hh, hcam⟩ := exec_forwarded_cam hf ht
    rw [hcam]
    by_cases hsrc : h.src = m
    · subst hsrc
      have hknown : camLookup s.cam h.src ≠ none := by rw [hm]; exact Option.some_ne_none p
      exact .inr ⟨h, hh, rfl, camLookup_learn_same q hw (.inl hknown)⟩
    · exact .inl ((camLookup_learn_other q hw (Ne.symm hsrc)).trans hm)

/-- Settles O38, by the cases of a step: only a flush, a reset and a frame write the table. -/
theorem learnedAddressStays : Obligations.LearnedAddressStays := by
  intro s t e rest m p hs hsched ht hm
  rcases step_cases ht with ⟨hidle, -⟩ | ⟨e', rest', hsched', hcase⟩
  · rw [hidle] at hsched
    cases hsched
  cases hsched.symm.trans hsched'
  rcases hcase with ⟨r, rfl, hx⟩ | ⟨q, f, -, rfl⟩ | ⟨q, raw, rfl, hhead, hx⟩ | ⟨q, -, -, rfl⟩ |
    ⟨rfl, rfl⟩
  · obtain ⟨hcam, -⟩ := exec_decodeHost_cam (s := s.withSchedule rest) hx
    cases hflush : flushes (.transact r) with
    | true => exact .inr (.inl ⟨.inl rfl, by rw [hcam, if_pos hflush]⟩)
    | false =>
      rw [hcam, hflush]
      exact .inl hm
  · left
    split <;> exact hm
  · rcases exec_frame_camLookup (s := s.withSchedule rest) (decodeFrame_anyFrame _ _ _ _) hs.camWf hx
      hm with hkept | ⟨h, hh, hsrc, hmoved⟩
    · exact .inl hkept
    · exact .inr (.inr ⟨q, raw, h, rfl, hhead, hh, hsrc, hmoved⟩)
  · exact .inl hm
  · exact .inr (.inl ⟨.inr rfl, rfl⟩)

/-! The read-back (R85, R134, R135). -/

theorem decodeHost_rdCamDataLo (c : Params) (d : Word) :
    decodeHost c ⟨false, 0x024, d⟩ = .rdCamDataLo := decodeHost_at 0x0024 rfl rfl

theorem decodeHost_rdCamDataHi (c : Params) (d : Word) :
    decodeHost c ⟨false, 0x028, d⟩ = .rdCamDataHi := decodeHost_at 0x0028 rfl rfl

theorem exec_rdCamDataLo (s : State) :
    exec .rdCamDataLo s = .next (s.withResponse (some ⟨camDataLo s, false⟩)) := rfl

theorem exec_rdCamDataHi (s : State) :
    exec .rdCamDataHi s = .next (s.withResponse (some ⟨camDataHi s, false⟩)) := rfl

/-- The fields of CAM_DATA_HI side by side (10_state.md R27): an append is the disjunction of the
shifted parts. -/
theorem camDataHi_fields (port : PortId) (macHi : BitVec 16) :
    ((1 : Word) <<< 31) ||| (port.zeroExtend 32 <<< 16) ||| macHi.zeroExtend 32 =
      (1 : BitVec 1) ++ (0 : BitVec 10) ++ port ++ macHi := by
  simp only [BitVec.append_def, BitVec.shiftLeftZeroExtend_eq, BitVec.setWidth'_eq]
  simp [BitVec.setWidth_or, BitVec.shiftLeft_or_distrib]

theorem camShown_of_valid {s : State} {e : CamCell} (hk : s.camIndex.toNat < s.params.camEntries)
    (he : camEntry? s.cam s.camIndex.toNat = some e) : camShown s = some e := by
  rw [camShown, if_pos hk, he]

theorem camShown_of_invalid {s : State} (h : s.params.camEntries ≤ s.camIndex.toNat ∨
    camEntry? s.cam s.camIndex.toNat = none) : camShown s = none := by
  rw [camShown]
  split
  · next hk => exact h.resolve_left (Nat.not_le_of_lt hk)
  · rfl

/-- Settles O19: both words are computed from the entry that the read-back shows. -/
theorem camDataReads : Obligations.CamDataReads := by
  intro s d
  refine ⟨decodeHost_rdCamDataLo _ d, decodeHost_rdCamDataHi _ d, fun e hk he => ?_, fun h => ?_⟩
  · have hshown := camShown_of_valid hk he
    rw [exec_rdCamDataLo, exec_rdCamDataHi, camDataLo, camDataHi, hshown, ← camDataHi_fields]
    exact ⟨rfl, rfl⟩
  · rw [exec_rdCamDataLo, exec_rdCamDataHi, camDataLo, camDataHi, camShown_of_invalid h]
    exact ⟨rfl, rfl⟩

end Sys2Proof.Machine
end

