-- ==== Sys2Proof/Proofs/VlanResolver.lean ====
section
/-! PROOFS. The VLAN resolver: the effective VLAN and exit id by the role of the ingress port, and
ComputeExitIdFromMac as a sum of nibbles. -/

namespace Sys2Proof.Machine

/-! The effective ids (43_vlan_resolver.md R87, R88). -/

theorem effectiveVlan_access {s : State} {p : PortId} (hp : isTrunk s p = false) (h : Header) :
    effectiveVlan s p h = some (accessVlan s p) := by
  simp [effectiveVlan, hp]

theorem effectiveExit_access {s : State} {p : PortId} (hp : isTrunk s p = false) (h : Header) :
    effectiveExit s p h = some (exitIdFromMac h.src) := by
  simp [effectiveExit, hp]

theorem effectiveVlan_trunk {s : State} {p : PortId} (hp : isTrunk s p = true) (h : Header) :
    effectiveVlan s p h = if h.tagged then some (tciVlan h.tci) else none :=
  if_pos hp

theorem effectiveExit_trunk {s : State} {p : PortId} (hp : isTrunk s p = true) (h : Header) :
    effectiveExit s p h = if h.tagged then some (tciExit h.tci) else none :=
  if_pos hp

/-- Settles O44, by the role of the ingress port. -/
theorem effectiveIds : Obligations.EffectiveIds := by
  intro s p h
  refine ⟨fun hp htag => ?_, fun hp htag => ?_, fun hp => ?_⟩
  · rw [effectiveVlan_trunk hp, effectiveExit_trunk hp, if_pos htag, if_pos htag]
    exact ⟨rfl, rfl⟩
  · simp [effectiveVlan_trunk hp, effectiveExit_trunk hp, htag]
  · exact ⟨effectiveVlan_access hp h, effectiveExit_access hp h⟩

/-- The resolver reads the port table alone, and Learn does not write it. -/
@[simp] theorem effectiveVlan_afterLearn (s : State) (p q : PortId) (h g : Header) :
    effectiveVlan (afterLearn s p h) q g = effectiveVlan s q g := by
  simp [effectiveVlan]

@[simp] theorem effectiveExit_afterLearn (s : State) (p q : PortId) (h g : Header) :
    effectiveExit (afterLearn s p h) q g = effectiveExit s q g := by
  simp [effectiveExit]

/-! ComputeExitIdFromMac (R89). -/

/-- The sum of the two nibbles of a byte. -/
def byteNibbles (b : Byte) : Nat := (b.extractLsb' 4 4).toNat + (b.extractLsb' 0 4).toNat

/-- The 8-bit wrap of the accumulator does not show modulo 16. -/
theorem addNibbles_mod (acc b : Byte) :
    (addNibbles acc b).toNat % 16 = (acc.toNat + byteNibbles b) % 16 := by
  simp [addNibbles, byteNibbles, BitVec.toNat_add]
  omega

theorem foldl_addNibbles_mod (bytes : List Byte) (acc : Byte) :
    (bytes.foldl addNibbles acc).toNat % 16 = (acc.toNat + (bytes.map byteNibbles).sum) % 16 := by
  induction bytes generalizing acc with
  | nil => simp
  | cons b bytes ih =>
    have hb := addNibbles_mod acc b
    rw [List.foldl_cons, ih, List.map_cons, List.sum_cons]
    omega

theorem exitIdFromMac_eq_foldl (m : Mac) :
    exitIdFromMac m = ((macBytes m).foldl addNibbles 0).extractLsb' 0 4 := by
  rw [exitIdFromMac, macBytes, List.foldl_map]

/-- Nibble `j` of byte `i` of a MAC is nibble `2 * (5 - i) + j` of the whole. -/
theorem macByte_nibble (m : Mac) (i : Nat) {start : Nat} (hstart : start + 4 ≤ 8) :
    (macByte m i).extractLsb' start 4 = m.extractLsb' (40 - 8 * i + start) 4 :=
  BitVec.eq_of_getLsbD_eq fun k hk => by
    simp [macByte, hk, show start + k < 8 by omega, Nat.add_assoc]

theorem byteNibbles_macByte (m : Mac) (i : Nat) :
    byteNibbles (macByte m i) =
      (m.extractLsb' (40 - 8 * i + 4) 4).toNat + (m.extractLsb' (40 - 8 * i) 4).toNat := by
  rw [byteNibbles, macByte_nibble m i (by omega), macByte_nibble m i (by omega)]
  rfl

/-- The nibbles counted byte by byte in wire order are the 12 nibbles counted from the right. -/
theorem sum_byteNibbles_macBytes (m : Mac) : ((macBytes m).map byteNibbles).sum = nibbleSum m := by
  simp [macBytes, byteNibbles_macByte, nibbleSum, List.range_succ]
  omega

/-- Settles O45: the accumulator holds the sum of the nibbles modulo 16 at every byte. -/
theorem exitIdIsNibbleSum : Obligations.ExitIdIsNibbleSum := by
  intro m
  calc (exitIdFromMac m).toNat
      = ((macBytes m).foldl addNibbles 0).toNat % 16 := by simp [exitIdFromMac_eq_foldl]
    _ = (0 + ((macBytes m).map byteNibbles).sum) % 16 := foldl_addNibbles_mod _ 0
    _ = nibbleSum m % 16 := by rw [sum_byteNibbles_macBytes, Nat.zero_add]

end Sys2Proof.Machine
end

