-- ==== Sys2Proof/Proofs/VlanReach.lean ====
section
/-! PROOFS. Which egress ports a frame reaches by its VLAN and exit id: no access port outside the VLAN,
and for a known unicast exactly the learned port or none. -/

namespace Sys2Proof.Machine

/-! Access ports outside the frame's VLAN (44_forwarding.md R97, R98). -/

/-- No mode sends a frame to an access port whose VLAN is not the frame's. -/
theorem forward_egress_of_vlan_ne {s : State} {p o : PortId} {h : Header} (raw : Frame)
    (ho : isTrunk s o = false) (hvlan : effectiveVlan s p h ≠ some (accessVlan s o)) :
    portGet (forward p raw h (afterLearn s p h)).egress o = portGet s.egress o := by
  have hout : o ∉ (frameWork (afterLearn s p h) p h).admitted := fun hmem => by
    obtain ⟨-, -, hadmits⟩ := mem_admit.1 hmem
    rcases admits_vlan hadmits with htrunk | hsame
    · simp [ho] at htrunk
    · exact hvlan (by simpa using hsame)
  rw [forward_egress_of_not_admitted raw hout, afterLearn_egress]

/-- Settles O50: a frame from an access port is in that port's VLAN, whatever its bytes. -/
theorem accessPortsOfOtherVlansAreUnreachable :
    Obligations.AccessPortsOfOtherVlansAreUnreachable := by
  intro s t i p o raw hi hp ho hne ht
  rcases exec_frame_cases hi ht with ⟨d, rfl⟩ | ⟨h, rfl⟩
  · rw [raiseDrop_egress, acceptFrame_egress]
  · refine forward_egress_of_vlan_ne raw ho ?_
    rw [effectiveVlan_access hp]
    exact fun heq => hne (Option.some.inj heq).symm

/-- Settles O51: the VLAN of an untagged frame from a trunk is INVALID, which is no port's. -/
theorem untaggedTrunkFrameReachesOnlyTrunks : Obligations.UntaggedTrunkFrameReachesOnlyTrunks := by
  intro s t i p o raw h hi hh htag hp ho ht
  rw [exec_forwarded_next hi hh ht]
  refine forward_egress_of_vlan_ne raw ho ?_
  simp [effectiveVlan_trunk hp, htag]

/-! The extended test by the role of the egress port (R98). -/

theorem extendedTest_trunk {s : State} {o : PortId} (ho : isTrunk s o = true) (v : Option VlanId)
    (e : Option ExitId) (d : Mac) : extendedTest s v e d o = true :=
  extendedTest_iff.2 (.inl ho)

theorem extendedTest_access {s : State} {o : PortId} (ho : isTrunk s o = false) {v : Option VlanId}
    {e : Option ExitId} {d : Mac} :
    extendedTest s v e d o = true ↔
      v = some (accessVlan s o) ∧ (s.exitCheckEn = false ∨ e = some (exitIdFromMac d)) := by
  simp [extendedTest_iff, ho]

@[simp] theorem extendedTest_afterLearn (s : State) (p o : PortId) (h : Header) (v : Option VlanId)
    (e : Option ExitId) (d : Mac) :
    extendedTest (afterLearn s p h) v e d o = extendedTest s v e d o := by
  simp [extendedTest]

/-! Known unicast (R94 to R101). -/

/-- Learning the source does not make another learned destination unknown. -/
theorem selectMode_afterLearn {s : State} {p q : PortId} {h : Header} (hw : Cam.wf s.params s.cam)
    (hqp : q ≠ p) (hucast : macIsMulticast h.dst = false) (hsrc : h.dst ≠ h.src)
    (hdst : camLookup s.cam h.dst = some q) :
    selectMode (afterLearn s p h) p h.dst = .unicastKnown q := by
  refine selectMode_unicast.2 ⟨hucast, ?_, hqp⟩
  rw [afterLearn_cam, camLookup_learn_other p hw hsrc, hdst]

theorem admitted_unicastKnown {s : State} {p q : PortId} {h : Header}
    (hmode : selectMode s p h.dst = .unicastKnown q) :
    (frameWork s p h).admitted =
      if isAdminDown s q = false ∧
          extendedTest s (effectiveVlan s p h) (effectiveExit s p h) h.dst q = true
        then [q] else [] := by
  cases hdown : isAdminDown s q <;>
    cases htest : extendedTest s (effectiveVlan s p h) (effectiveExit s p h) h.dst q <;>
    simp [frameWork, hmode, upCandidates, candidates, admits, hdown, htest]

/-- What a frame leaves that is sent to its known destination `q` only. -/
theorem forward_of_admitted_singleton {s : State} {p q : PortId} {h : Header} (raw : Frame)
    (hmode : selectMode s p h.dst = .unicastKnown q) (hone : (frameWork s p h).admitted = [q]) :
    (forward p raw h s).egress = portSet s.egress q (portGet s.egress q ++
      [egressFrame s h (frameWork s p h) raw q]) ∧ (forward p raw h s).lastDisp = ⟨1, p⟩ := by
  constructor
  · rw [forward, hone]
    rfl
  · have hdisp : workDisp (frameWork s p h) = .fwdUnicast := by
      have hwork : (frameWork s p h).mode = .unicastKnown q := hmode
      simp [workDisp, hone, hwork]
    rw [forward_frame, hdisp]
    rfl

/-- `t` is what a frame from `p` leaves of the egress channels and LAST_DISP of `s` when it reaches at
most port `q`: it reaches `q`, as `sent`, exactly where `reaches` holds, and is FILTERED elsewhere. -/
def UnicastResult (s t : State) (p q : PortId) (sent : Frame) (reaches : Prop) [Decidable reaches] :
    Prop :=
  if reaches then
    t.egress = portSet s.egress q (portGet s.egress q ++ [sent]) ∧ t.lastDisp = ⟨1, p⟩
  else t.egress = s.egress ∧ t.lastDisp = ⟨3, p⟩

/-- A frame to a known destination reaches it where it is up and passes the extended test. -/
theorem forward_unicastResult {s : State} {p q : PortId} {raw sent : Frame} {h : Header}
    {reaches : Prop} [Decidable reaches]
    (hmode : selectMode (afterLearn s p h) p h.dst = .unicastKnown q)
    (hreaches : reaches ↔ isAdminDown s q = false ∧
      extendedTest s (effectiveVlan s p h) (effectiveExit s p h) h.dst q = true)
    (hsent : reaches → rewrite s.marker (isTrunk s q) h.tagged (effectiveVlan s p h)
      (effectiveExit s p h) raw = sent) :
    UnicastResult s (forward p raw h (afterLearn s p h)) p q sent reaches := by
  have hadmitted := admitted_unicastKnown hmode
  simp only [isAdminDown_afterLearn, effectiveVlan_afterLearn, effectiveExit_afterLearn,
    extendedTest_afterLearn, ← hreaches] at hadmitted
  unfold UnicastResult
  split
  · next hr =>
    rw [if_pos hr] at hadmitted
    have hdone := forward_of_admitted_singleton raw hmode hadmitted
    have hframe : egressFrame (afterLearn s p h) h (frameWork (afterLearn s p h) p h) raw q = sent := by
      simpa [egressFrame, frameWork] using hsent hr
    rwa [hframe, afterLearn_egress] at hdone
  · next hr =>
    rw [if_neg hr] at hadmitted
    have hdone := forward_of_admitted_nil raw hadmitted
    rwa [afterLearn_egress] at hdone

theorem exec_forwarded_of_header {i : Instr} {p : PortId} {raw : Frame} {h : Header} {s : State}
    (hi : forwardedFrame i = some (p, raw)) (hh : parseHeader s.marker raw = some h) :
    exec i s = .next (forward p raw h (afterLearn s p h)) := by
  rw [exec_forwarded hi, forwardFrame, hh]
  rfl

theorem rewrite_access (marker : BitVec 16) (tagged : Bool) (vlan : Option VlanId)
    (exit : Option ExitId) (raw : Frame) :
    rewrite marker false tagged vlan exit raw =
      if tagged then raw.take 12 ++ raw.drop 16 else raw := by
  cases tagged <;> rfl

/-- Settles O54: in each pair of roles the stated condition is the extended test on the frame's
effective ids, and the stated bytes are what Rewrite gives. -/
theorem unicastConvergence : Obligations.UnicastConvergence := by
  intro s i p q raw h hw hi hh hqp hucast hsrc hdst
  have hmode := selectMode_afterLearn hw hqp hucast hsrc hdst
  refine ⟨_, exec_forwarded_of_header hi hh, fun hp hq => ?_, fun hq => ?_, fun hp hq => ?_⟩
  · refine forward_unicastResult hmode ?_ fun _ => ?_
    · simp only [extendedTest_access hq, effectiveVlan_access hp, effectiveExit_access hp,
        Option.some.injEq, eq_comm (a := accessVlan s q)]
    · rw [hq, rewrite_access]
  · refine forward_unicastResult hmode ?_ fun _ => ?_
    · rw [and_iff_left (extendedTest_trunk hq _ _ _)]
    · rw [hq]
  · refine forward_unicastResult hmode ?_ fun hreaches => ?_
    · cases htag : h.tagged <;>
        simp [extendedTest_access hq, effectiveVlan_trunk hp, effectiveExit_trunk hp, htag]
    · obtain ⟨-, htag, -⟩ := hreaches
      rw [hq, htag, rewrite_access, if_pos rfl]

end Sys2Proof.Machine
end

