-- ==== Sys2Proof/Proofs/Admission.lean ====
section
/-! PROOFS. Which ports a frame is admitted to: the forwarding mode, the candidates, the membership test
of each mode, and how many ports pass. -/

namespace Sys2Proof.Machine

/-! The forwarding mode (44_forwarding.md R94). -/

/-- FLOOD is for a group destination, an unknown one, and one that is behind the ingress port. -/
theorem selectMode_flood {s : State} {p : PortId} {d : Mac} :
    selectMode s p d = .flood ↔
      macIsMulticast d = true ∨ camLookup s.cam d = none ∨ camLookup s.cam d = some p := by
  cases hmode : selectMode s p d with
  | unicastKnown q =>
    obtain ⟨hucast, hlookup, hne⟩ := selectMode_unicast.1 hmode
    simp [hucast, hlookup, hne]
  | flood =>
    rw [eq_self_iff_true, true_iff]
    cases hgroup : macIsMulticast d with
    | true => exact .inl rfl
    | false =>
      cases hlookup : camLookup s.cam d with
      | none => exact .inr (.inl rfl)
      | some q =>
        by_cases hqp : q = p
        · exact .inr (.inr (congrArg some hqp))
        · cases hmode.symm.trans (selectMode_unicast.2 ⟨hgroup, hlookup, hqp⟩)

/-! The candidates (R95, R96). -/

theorem mem_upCandidates {s : State} {p o : PortId} {mode : FMode} :
    o ∈ upCandidates s p mode ↔ o ∈ candidates s p mode ∧ isAdminDown s o = false := by
  simp [upCandidates]

theorem mem_candidates_flood {s : State} {p o : PortId} :
    o ∈ candidates s p .flood ↔ o.toNat < s.params.nPorts ∧ o ≠ p := by
  simp [mem_candidates]

/-- Settles O42: the two modes exclude each other, and both candidate sets are filtered alike. -/
theorem modeAndCandidates : Obligations.ModeAndCandidates := by
  intro s p o q dst
  refine ⟨fun hucast hlookup hne => selectMode_unicast.2 ⟨hucast, hlookup, hne⟩,
    selectMode_flood.2, ?_, ?_⟩
  · exact mem_upCandidates.trans (and_congr_left' List.mem_singleton)
  · rw [mem_upCandidates, mem_candidates_flood, and_assoc]
    rfl

/-! The membership tests (R97, R98, R99). -/

/-- Settles O43: admission filters the candidates by the test of the mode. -/
theorem membershipTests : Obligations.MembershipTests := by
  refine ⟨fun s vlan exit dst o => ⟨basicTest_iff, extendedTest_iff⟩, ?_⟩
  intro s p o h w
  have hadmitted : o ∈ w.admitted ↔ o ∈ w.cand ∧ admits s w.mode w.vlan w.exit h.dst o = true :=
    List.mem_filter
  refine ⟨fun q hmode => ?_, fun hmode => ?_⟩
  · rwa [hmode] at hadmitted
  · rwa [hmode] at hadmitted

theorem mem_admitted_flood {s : State} {p o : PortId} {h : Header}
    (hmode : (frameWork s p h).mode = .flood) :
    o ∈ (frameWork s p h).admitted ↔ o.toNat < s.params.nPorts ∧ o ≠ p ∧
      isAdminDown s o = false ∧
      (isTrunk s o = true ∨ (frameWork s p h).vlan = some (accessVlan s o)) := by
  have hsel : selectMode s p h.dst = .flood := hmode
  rw [mem_admit, hsel, mem_candidates_flood, and_assoc]
  exact and_congr_right' (and_congr_right' (and_congr_right' basicTest_iff))

/-- Settles O49: FLOOD uses the basic test, and with ADMIN_DOWN at 0 no candidate is removed before
it. -/
theorem floodVlanIsolation : Obligations.FloodVlanIsolation := by
  intro s p h v hmode hvlan
  have hmem := fun o => mem_admitted_flood (o := o) hmode
  simp only [hvlan, Option.some.injEq, eq_comm (a := v)] at hmem
  refine ⟨fun o ho haccess => ?_, fun hup o => ?_⟩
  · obtain ⟨-, -, -, htrunk | hsame⟩ := (hmem o).1 ho
    · cases haccess.symm.trans htrunk
    · exact hsame
  · have hdown : isAdminDown s o = false := by
      rw [isAdminDown, hup]
      exact BitVec.getLsbD_zero
    rw [hmem, hdown, eq_self_iff_true, true_and]

/-- Settles O48: a drop sends nothing, and no frame is admitted to its ingress port. -/
theorem noSelfForwarding : Obligations.NoSelfForwarding := by
  refine ⟨ingress_not_admitted, fun s t i p raw hi ht => ?_⟩
  rcases exec_frame_cases hi ht with ⟨d, rfl⟩ | ⟨h, rfl⟩
  · rw [raiseDrop_egress, acceptFrame_egress]
  · rw [forward_egress_of_not_admitted raw (ingress_not_admitted _ p h), afterLearn_egress]

/-! How many ports are admitted (R115). -/

theorem length_admitted_unicastKnown {s : State} {p q : PortId} {h : Header}
    (hmode : (frameWork s p h).mode = .unicastKnown q) : (frameWork s p h).admitted.length ≤ 1 := by
  rw [admitted_unicastKnown hmode]
  split
  · exact Nat.le_refl 1
  · exact Nat.zero_le 1

/-- In FLOOD mode the admitted ports and the ingress port are different ports of the block. -/
theorem length_admitted_flood {s : State} {p : PortId} {h : Header} (hp : p.toNat < s.params.nPorts)
    (hmode : (frameWork s p h).mode = .flood) :
    (frameWork s p h).admitted.length ≤ s.params.nPorts - 1 := by
  have hnodup : (p :: (frameWork s p h).admitted).Nodup :=
    List.nodup_cons.2 ⟨ingress_not_admitted s p h, admit_nodup s p h⟩
  have hports : p :: (frameWork s p h).admitted ⊆ allPorts s.params :=
    List.cons_subset.2 ⟨(mem_allPorts _ p).2 hp, fun o ho =>
      (mem_allPorts _ o).2 ((mem_admitted_flood hmode).1 ho).1⟩
  have hle := (hnodup.subperm hports).length_le
  rw [List.length_cons, length_allPorts] at hle
  exact Nat.le_sub_of_add_le hle

/-- Settles O56, by the two modes. -/
theorem transmitBounds : Obligations.TransmitBounds :=
  fun _ _ _ hp => ⟨fun _ => length_admitted_unicastKnown, length_admitted_flood hp⟩

/-- Whatever the mode, no more ports are admitted than the block has. -/
theorem length_admitted_le (s : State) (p : PortId) (h : Header) :
    (frameWork s p h).admitted.length ≤ s.params.nPorts := by
  have hcand : (candidates s p (selectMode s p h.dst)).length ≤ s.params.nPorts := by
    cases selectMode s p h.dst with
    | unicastKnown q => exact nPorts_pos s.params
    | flood => exact (List.length_filter_le _ _).trans (length_allPorts s.params).le
  exact (List.length_filter_le _ _).trans ((List.length_filter_le _ _).trans hcand)

/-! Destinations that flood (R94, R107, R109). -/

/-- Decode reads the destination from the first six bytes, and calls tagged only a frame with room for
a tag and an ethertype (40_frame_codec.md R69). -/
theorem parseHeader_dst_and_tag {marker : BitVec 16} {raw : Frame} {h : Header}
    (hh : parseHeader marker raw = some h) :
    h.dst = macAt raw 0 ∧ (h.tagged = true → 18 ≤ raw.length) := by
  obtain ⟨hlen, -⟩ := parseHeader_some hh
  by_cases hm : be16 raw 12 = marker
  · by_cases hshort : raw.length < 18
    · rw [parseHeader, if_neg hlen, if_pos hm, if_pos hshort] at hh
      cases hh
    · rw [parseHeader_tagged (Nat.le_of_not_lt hshort) hm] at hh
      cases hh
      exact ⟨rfl, fun _ => Nat.le_of_not_lt hshort⟩
  · rw [parseHeader_untagged (Nat.le_of_not_lt hlen) hm] at hh
    cases hh
    exact ⟨rfl, fun htag => Bool.noConfusion htag⟩

/-- The header of a frame of the multicast classes has a group destination. -/
theorem macIsMulticast_of_wellFormed {c : Params} {marker : BitVec 16} {i : Instr} {p : PortId}
    {raw : Frame} {h : Header} (hi : i = .frameTaggedMcast p raw ∨ i = .frameUntaggedMcast p raw)
    (hw : i.wellFormed c marker = true) (hh : parseHeader marker raw = some h) :
    macIsMulticast h.dst = true := by
  obtain ⟨hdst, -⟩ := parseHeader_dst_and_tag hh
  rw [macIsMulticast, hdst, macAt_group]
  rcases hi with rfl | rfl
  all_goals
    obtain ⟨-, -, -, hgroup⟩ := frameCondition_of_wellFormed rfl hw
    exact hgroup

/-- After Learn the source is behind the ingress port, or unknown where there was no room for it. -/
theorem camLookup_learn_source {s : State} (m : Mac) (p : PortId) (hw : Cam.wf s.params s.cam) :
    camLookup (learn m p s).cam m = none ∨ camLookup (learn m p s).cam m = some p := by
  by_cases hroom : camLookup s.cam m ≠ none ∨ camFull s = false
  · exact .inr (camLookup_learn_same p hw hroom)
  · simp only [not_or, not_not, Bool.not_eq_false] at hroom
    obtain ⟨hnew, hfull⟩ := hroom
    rw [learn_full p (Option.map_eq_none_iff.1 hnew) (Option.isNone_iff_eq_none.1 hfull)]
    exact .inl hnew

/-- Settles O55: the I/G bit that the class fixes is the destination's, and Learn puts no other port
than the ingress port behind the two destinations. -/
theorem groupAndLocalDestinationsFlood : Obligations.GroupAndLocalDestinationsFlood := by
  intro s i p raw h hwf _ hh
  refine ⟨fun hi => selectMode_flood.2 (.inl (macIsMulticast_of_wellFormed hi hwf hh)),
    fun hw hlocal => selectMode_flood.2 (.inr ?_)⟩
  rw [afterLearn_cam]
  by_cases hsrc : h.dst = h.src
  · rw [hsrc]
    exact camLookup_learn_source h.src p hw
  · rw [camLookup_learn_other p hw hsrc]
    exact .inr (hlocal.resolve_left hsrc)

end Sys2Proof.Machine
end

