-- ==== Sys2Proof/Proofs/FrameEffects.lean ====
section
/-! PROOFS. What a frame step leaves of the whole state: the drop classes, the forwarded classes with the
bytes they send, and the disposition beside what was sent. -/

namespace Sys2Proof.Machine

/-! The drop classes (44_forwarding.md R102 to R105). -/

/-- Settles O34: each class has its condition, and a drop writes the fields that `raise` names. -/
theorem droppedFrames : Obligations.DroppedFrames := by
  intro s p raw
  exact ⟨fun hmax => ⟨decodeFrame_of_frameCondition rfl hmax, dropFrame_oversize p s⟩,
    fun hrunt => ⟨decodeFrame_of_frameCondition rfl hrunt, dropFrame_runt p s⟩,
    fun hlen hshort hm =>
      ⟨decodeFrame_of_frameCondition rfl ⟨hlen, hshort, hm⟩, dropFrame_taggedRunt p s⟩⟩

/-! The forwarded classes (R91, R100). -/

theorem anyFrame_of_forwardedFrame {i : Instr} {p : PortId} {raw : Frame}
    (hi : forwardedFrame i = some (p, raw)) : anyFrame i = some (p, raw) := by
  cases i
  case frameTaggedUcast | frameTaggedMcast | frameUntaggedUcast | frameUntaggedMcast => exact hi
  all_goals cases hi

/-- A well-formed frame of a forwarded class has a header: it is what its bytes decode to. -/
theorem parseHeader_of_wellFormed {c : Params} {marker : BitVec 16} {i : Instr} {p : PortId}
    {raw : Frame} (hi : forwardedFrame i = some (p, raw)) (hw : i.wellFormed c marker = true) :
    ∃ h, parseHeader marker raw = some h := by
  have hany := anyFrame_of_forwardedFrame hi
  have hdecode : decodeFrame c marker p raw = i :=
    decodeFrame_of_frameCondition hany (frameCondition_of_wellFormed hany hw)
  exact parseHeader_decodeFrame (c := c) (p := p) (by rw [hdecode, hi])

/-- Each admitted port is sent the frame as Rewrite gives it for that port's role (R99, R100). -/
theorem forward_afterLearn_egress (s : State) (p o : PortId) (raw : Frame) (h : Header) :
    portGet (forward p raw h (afterLearn s p h)).egress o = portGet s.egress o ++
      (if o ∈ (workOf s p h).admitted then
        [rewrite s.marker (isTrunk s o) h.tagged (workOf s p h).vlan (workOf s p h).exit raw]
      else []) := by
  rw [forward_egress, afterLearn_egress, egressFrame, afterLearn_marker, isTrunk_afterLearn]
  rfl

/-- Beside what the statement names, a frame step keeps the state: `forward_frame` and `learn_frame`
list the fields that forwarding and Learn write. -/
theorem forward_afterLearn_frame (s : State) (p : PortId) (raw : Frame) (h : Header) :
    { forward p raw h (afterLearn s p h) with
      ingress := s.ingress, rxCount := s.rxCount, cam := s.cam, learnFail := s.learnFail,
      learnFailCount := s.learnFailCount, egress := s.egress, txCount := s.txCount,
      lastDisp := s.lastDisp } = s := by
  obtain ⟨egress, txCount, lastDisp, hforward⟩ : ∃ egress txCount lastDisp,
      forward p raw h (afterLearn s p h) =
        (((afterLearn s p h).withEgress egress).withTxCount txCount).withLastDisp lastDisp :=
    ⟨_, _, _, forward_frame p raw h _⟩
  obtain ⟨cam, learnFail, count, hlearn⟩ : ∃ cam learnFail count,
      afterLearn s p h =
        (((acceptFrame p s).withCam cam).withLearnFail learnFail).withLearnFailCount count :=
    ⟨_, _, _, learn_frame h.src p _⟩
  rw [hforward, hlearn]
  simp [acceptFrame]

theorem forward_lastDisp (p : PortId) (raw : Frame) (h : Header) (s : State) :
    (forward p raw h s).lastDisp = ⟨dispCode (workDisp (frameWork s p h)), p⟩ := by
  rw [forward_frame]; rfl
@[simp] theorem forward_rxCount (p : PortId) (raw : Frame) (h : Header) (s : State) :
    (forward p raw h s).rxCount = s.rxCount := by rw [forward_frame]; rfl
@[simp] theorem forward_ingress (p : PortId) (raw : Frame) (h : Header) (s : State) :
    (forward p raw h s).ingress = s.ingress := by rw [forward_frame]; rfl
@[simp] theorem forward_learnFail (p : PortId) (raw : Frame) (h : Header) (s : State) :
    (forward p raw h s).learnFail = s.learnFail := by rw [forward_frame]; rfl
@[simp] theorem forward_learnFailCount (p : PortId) (raw : Frame) (h : Header) (s : State) :
    (forward p raw h s).learnFailCount = s.learnFailCount := by rw [forward_frame]; rfl
@[simp] theorem forward_dropCount (p : PortId) (raw : Frame) (h : Header) (s : State) :
    (forward p raw h s).dropCount = s.dropCount := by rw [forward_frame]; rfl
@[simp] theorem acceptFrame_dropCount (p : PortId) (s : State) :
    (acceptFrame p s).dropCount = s.dropCount := rfl
@[simp] theorem afterLearn_dropCount (s : State) (p : PortId) (h : Header) :
    (afterLearn s p h).dropCount = s.dropCount := by rw [afterLearn, learn_frame]; rfl

/-- Settles O35: the bytes of a well-formed frame have a header, and the frame step forwards by it. -/
theorem forwardedFrames : Obligations.ForwardedFrames := by
  intro s i p raw hi hwf
  obtain ⟨h, hh⟩ := parseHeader_of_wellFormed hi hwf
  refine ⟨h, _, hh, exec_forwarded_of_header hi hh, ?ingress, ?rxCount, ?cam, ?learnFail,
    ?learnFailCount, fun o => forward_afterLearn_egress s p o raw h, ?txCount,
    forward_lastDisp p raw h _, forward_afterLearn_frame s p raw h⟩
  case ingress => rw [forward_ingress, afterLearn_ingress]
  case rxCount => rw [forward_rxCount, afterLearn_rxCount]
  case cam => rw [forward_cam, afterLearn_cam]
  case learnFail => rw [forward_learnFail, afterLearn_learnFail]
  case learnFailCount => rw [forward_learnFailCount, afterLearn_learnFailCount]
  case txCount => rw [forward_txCount, afterLearn_txCount]; rfl

/-! Tagged frames (R113). -/

theorem rewrite_tagged (marker : BitVec 16) (trunk : Bool) (vlan : Option VlanId)
    (exit : Option ExitId) (raw : Frame) :
    rewrite marker trunk true vlan exit raw = if trunk then raw else stripTag raw := by
  cases trunk <;> rfl

/-- Settles O53: Rewrite keeps a tagged frame towards a trunk and strips its tag towards an access
port. -/
theorem trunkTransparency : Obligations.TrunkTransparency := by
  intro s t i p o raw h hi hh htag ht ho
  obtain ⟨-, hlen⟩ := parseHeader_dst_and_tag hh
  refine ⟨?_, length_stripTag (Nat.le_trans (by decide) (hlen htag))⟩
  rw [exec_forwarded_next hi hh ht, forward_afterLearn_egress, if_pos ho, htag, rewrite_tagged]
  rfl

/-! The disposition (R101, 60_exceptions.md R143). -/

/-- What the disposition of a frame that is not dropped says of its working registers. -/
theorem workDisp_cases (w : Work) :
    (w.admitted = [] ∧ workDisp w = .filtered) ∨
    (w.admitted ≠ [] ∧ (∃ q, w.mode = .unicastKnown q) ∧ workDisp w = .fwdUnicast) ∨
    (w.admitted ≠ [] ∧ w.mode = .flood ∧ workDisp w = .fwdFlood) := by
  by_cases hnone : w.admitted = []
  · exact .inl ⟨hnone, if_pos hnone⟩
  cases hmode : w.mode with
  | unicastKnown q => exact .inr (.inl ⟨hnone, ⟨q, rfl⟩, by rw [workDisp, if_neg hnone, hmode]⟩)
  | flood => exact .inr (.inr ⟨hnone, rfl, by rw [workDisp, if_neg hnone, hmode]⟩)

theorem forward_egress_eq_iff (p : PortId) (raw : Frame) (h : Header) (s : State) :
    (forward p raw h s).egress = s.egress ↔ (frameWork s p h).admitted = [] := by
  refine ⟨fun hsame => List.eq_nil_iff_forall_not_mem.2 fun o ho => ?_,
    fun hnone => (forward_of_admitted_nil raw hnone).1⟩
  have hgrown := forward_egress p raw h s o
  rw [hsame, if_pos ho, List.self_eq_append_right] at hgrown
  cases hgrown

/-- The copies of one frame are too few for TX_COUNT to wrap back to its value before. -/
theorem forward_txCount_eq_iff (p : PortId) (raw : Frame) (h : Header) (s : State) :
    (forward p raw h s).txCount = s.txCount ↔ (frameWork s p h).admitted = [] := by
  have hle := length_admitted_le s p h
  have hports := nPorts_le s.params
  rw [forward_txCount, BitVec.add_right_eq_self, ← List.length_eq_zero_iff,
    ← BitVec.toNat_inj, BitVec.toNat_ofNat, Nat.mod_eq_of_lt (by omega)]
  rfl

@[simp] theorem raiseDrop_lastDisp (d : Disposition) (p : PortId) (s : State) :
    (raiseDrop d p s).lastDisp = ⟨dispCode d, p⟩ := rfl
@[simp] theorem raiseDrop_dropCount (d : Disposition) (p : PortId) (s : State) :
    (raiseDrop d p s).dropCount = s.dropCount + 1 := by
  rcases raiseDrop_cases d p s with h | h <;> rw [h] <;> rfl
@[simp] theorem raiseDrop_rxCount (d : Disposition) (p : PortId) (s : State) :
    (raiseDrop d p s).rxCount = s.rxCount := by
  rcases raiseDrop_cases d p s with h | h <;> rw [h] <;> rfl
@[simp] theorem raiseDrop_txCount (d : Disposition) (p : PortId) (s : State) :
    (raiseDrop d p s).txCount = s.txCount := by
  rcases raiseDrop_cases d p s with h | h <;> rw [h] <;> rfl

/-- How forwarding a frame ends: FILTERED with nothing sent, FWD_UNICAST with one copy, or FWD_FLOOD with
some. -/
theorem forward_outcome (s : State) (p : PortId) (raw : Frame) (h : Header) :
    let t := forward p raw h (afterLearn s p h)
    (t.lastDisp = ⟨3, p⟩ ∧ t.egress = s.egress ∧ t.txCount = s.txCount) ∨
    (t.lastDisp = ⟨1, p⟩ ∧ t.egress ≠ s.egress ∧ t.txCount = s.txCount + 1 ∧
      ∃ q, (workOf s p h).mode = .unicastKnown q) ∨
    (t.lastDisp = ⟨2, p⟩ ∧ t.egress ≠ s.egress ∧ t.txCount ≠ s.txCount ∧
      (workOf s p h).mode = .flood) := by
  intro t
  have hlast : t.lastDisp = ⟨dispCode (workDisp (workOf s p h)), p⟩ := forward_lastDisp p raw h _
  have hegress : t.egress = s.egress ↔ (workOf s p h).admitted = [] := by
    rw [← afterLearn_egress s p h]
    exact forward_egress_eq_iff p raw h _
  have htx : t.txCount = s.txCount ↔ (workOf s p h).admitted = [] := by
    rw [← afterLearn_txCount s p h]
    exact forward_txCount_eq_iff p raw h _
  rcases workDisp_cases (workOf s p h) with ⟨hnone, hdisp⟩ | ⟨hsome, ⟨q, hmode⟩, hdisp⟩ |
    ⟨hsome, hmode, hdisp⟩ <;> rw [hdisp] at hlast
  · exact .inl ⟨hlast, hegress.2 hnone, htx.2 hnone⟩
  · have hone : (workOf s p h).admitted.length = 1 :=
      Nat.le_antisymm (length_admitted_unicastKnown hmode) (List.length_pos_iff.2 hsome)
    have hcount : t.txCount = s.txCount + 1 := by
      rw [forward_txCount, afterLearn_txCount, ← workOf, hone]
      rfl
    exact .inr (.inl ⟨hlast, mt hegress.1 hsome, hcount, q, hmode⟩)
  · exact .inr (.inr ⟨hlast, mt hegress.1 hsome, mt htx.1 hsome, hmode⟩)

/-- Settles O57, by the disposition: three for a drop, and three for a frame that is forwarded. -/
theorem dispositionTellsWhatWasSent : Obligations.DispositionTellsWhatWasSent := by
  intro s t i p raw hi ht
  rcases anyFrame_cases hi s with ⟨d, hd, hnone, hx⟩ | ⟨hf, -⟩
  · rw [hx] at ht
    injection ht with ht
    subst ht
    rcases hd with rfl | rfl | rfl <;> simp [hnone, dispCode]
  · obtain ⟨h, hh, -⟩ := exec_forwarded_cam hf ht
    have hnext := exec_forwarded_next hf hh ht
    subst hnext
    rcases forward_outcome s p raw h with ⟨hlast, hegress, htx⟩ |
      ⟨hlast, hegress, htx, q, hmode⟩ | ⟨hlast, hegress, htx, hmode⟩
    · simp [hlast, hegress, htx]
    · simp [hf, hh, hlast, hegress, htx, hmode]
    · simp [hf, hh, hlast, hegress, htx, hmode]

end Sys2Proof.Machine
end

