-- ==== Sys2Proof/Proofs/RegisterMap.lean ====
section
/-! PROOFS. Which instruction a transaction at a register's address decodes to, read off the encoder, and
the fields of the words that the registers show. -/

namespace Sys2Proof.Machine

/-! Decoding a register's address (20_memory.md R41). -/

/-- A transaction decodes to the instruction that encodes to it, the write data that the block does not
keep set aside. -/
theorem decodeHost_of_encode {c : Params} {i : Instr} {r : HostReq} (hw : i.wellFormed c 0 = true)
    (he : encode i = .host ⟨r.rw, r.addr, if r.rw && c.mapsAddr r.addr then r.wdata else 0⟩) :
    decodeHost c r = i :=
  calc decodeHost c r = decode c 0 (encode (decodeHost c r)) :=
        (decodeEncodeRoundTrip c 0 _ (decodeHost_wellFormed c 0 r)).symm
    _ = decode c 0 (encode i) := by rw [encode_decodeHost, he]
    _ = i := decodeEncodeRoundTrip c 0 i hw

/-- A read is decoded by its address, whatever stands on the write data lines. -/
theorem decodeHost_read {c : Params} {i : Instr} {a : BitVec 12} (hw : i.wellFormed c 0 = true)
    (he : encode i = .host (readAt a)) (d : Word) : decodeHost c ⟨false, a, d⟩ = i :=
  decodeHost_of_encode hw he

/-- A write is decoded to the instruction that encodes to it. -/
theorem decodeHost_write {c : Params} {i : Instr} {a : BitVec 12} {d : Word}
    (hw : i.wellFormed c 0 = true) (he : encode i = .host (writeAt a d)) :
    decodeHost c ⟨true, a, d⟩ = i := by
  have hback := decodeEncodeRoundTrip c 0 i hw
  rwa [he] at hback

theorem counterAddr_eq : ∀ k : BitVec 2, 0x030 + 4 * k.zeroExtend 12 = counterAddr k := by decide

theorem portCfgAddr_eq : ∀ p : PortId, 0x100 + 4 * p.zeroExtend 12 = portCfgAddr p := by decide

/-- The register map holds `PORT_CFG[p]` exactly for a port that exists. -/
theorem mapsAddr_portCfgAddr (c : Params) (p : PortId) :
    c.mapsAddr (portCfgAddr p) = true ↔ p.toNat < c.nPorts := by
  have hp := p.isLt
  rw [mapsAddr_iff, portCfgAddr_toNat]
  omega

/-- A transaction at `PORT_CFG[p]` of a port that does not exist falls to BUS_ERR
(45_host_interface.md R138, R139). -/
theorem decodeHost_portCfg_noPort {c : Params} {p : PortId} (hp : c.nPorts ≤ p.toNat) (write : Bool)
    (d : Word) : ∃ t, decodeHost c ⟨write, portCfgAddr p, d⟩ = .busErr t := by
  have hunmapped : c.mapsAddr (portCfgAddr p) = false := by
    rw [← Bool.not_eq_true, mapsAddr_portCfgAddr]
    exact Nat.not_lt_of_le hp
  exact ⟨_, decodeHost_unmapped (r := ⟨write, portCfgAddr p, d⟩) hunmapped⟩

/-! The words, by their fields and bits. -/

theorem flagWord_eq_ite (b : Bool) : flagWord b = if b then 1 else 0 := by
  cases b <;> rfl

@[simp] theorem getLsbD_flagWord (b : Bool) (k : Nat) :
    (flagWord b).getLsbD k = (decide (k = 0) && b) := by
  cases k <;> simp [flagWord]

/-- STATUS bit by bit (10_state.md R19). -/
theorem getLsbD_statusWord (s : State) (k : Nat) : (statusWord s).getLsbD k =
    (decide (k = 0) && s.learnFail || decide (k = 1) && s.malformed ||
      decide (k = 2) && s.oversize || decide (k = 3) && camFull s) := by
  simp only [statusWord, BitVec.getLsbD_or, BitVec.getLsbD_shiftLeft, getLsbD_flagWord]
  match k with
  | 0 | 1 | 2 | 3 => simp
  | k + 4 => simp

/-- Bit `k` of the port mask says whether port `k` exists. -/
@[simp] theorem getLsbD_portMask (c : Params) (k : Nat) :
    (portMask c).getLsbD k = decide (k < c.nPorts) := by
  have hle := nPorts_le c
  rw [portMask, BitVec.getLsbD_ofNat, Nat.testBit_two_pow_sub_one, Bool.and_eq_right_iff_imp]
  simp only [decide_eq_true_eq]
  omega

/-- Masking a word drops the bits of the ports that do not exist (45_host_interface.md R128, R129). -/
theorem getLsbD_and_portMask (c : Params) (w : Word) (k : Nat) :
    (w &&& portMask c).getLsbD k = (w.getLsbD k && decide (k < c.nPorts)) := by
  rw [BitVec.getLsbD_and, getLsbD_portMask]

/-- Widening a word that was widened and shifted is widening and shifting at once, as long as the shift
drops no bit. -/
theorem setWidth_shiftLeft_setWidth {n v : Nat} (w : Nat) (x : BitVec n) {a : Nat} (h : n + a ≤ v) :
    ((x.setWidth v) <<< a).setWidth w = (x.setWidth w) <<< a := by
  refine BitVec.eq_of_getLsbD_eq fun i hi => ?_
  cases hbit : x.getLsbD (i - a) with
  | false => simp [hbit]
  | true =>
    have hlt : i - a < n := BitVec.lt_of_getLsbD hbit
    by_cases ha : i < a
    · simp [ha]
    · have hroom : i < v ∧ i - a < v := by omega
      simp [hbit, hi, ha, hroom]

/-- The fields of LAST_DISP side by side (10_state.md R28). -/
theorem lastDispWord_fields (d : LastDisp) :
    lastDispWord d = (0 : BitVec 19) ++ d.port ++ (0 : BitVec 4) ++ d.disp := by
  simp only [lastDispWord, BitVec.append_def, BitVec.shiftLeftZeroExtend_eq, BitVec.setWidth'_eq]
  simp [setWidth_shiftLeft_setWidth, ← BitVec.shiftLeft_add]

/-- The fields of PORT_CFG side by side (10_state.md R30). -/
theorem portCfgWord_fields (cfg : PortCfg) : portCfgWord cfg =
    (0 : BitVec 4) ++ cfg.accessVlan ++ (0 : BitVec 15) ++ BitVec.ofBool cfg.trunk := by
  simp only [portCfgWord, flagWord, BitVec.append_def, BitVec.shiftLeftZeroExtend_eq,
    BitVec.setWidth'_eq]
  simp [setWidth_shiftLeft_setWidth, ← BitVec.shiftLeft_add]

end Sys2Proof.Machine
end

