-- ==== Sys2Proof/Proofs/RegisterReads.lean ====
section
/-! PROOFS. The host reads: the row that each address decodes to, and the word that its meaning puts on
the bus. -/

namespace Sys2Proof.Machine

/-! STATUS (45_host_interface.md R122). -/

theorem exec_rdStatus (s : State) :
    exec .rdStatus s = .next (s.withResponse (some ⟨statusWord s, false⟩)) := rfl

/-- Settles O18: each bit of the word that the read shows, and CAM_FULL as the level over the table. -/
theorem statusRead : Obligations.StatusRead := by
  intro s d
  refine ⟨decodeHost_read rfl rfl d, statusWord s, exec_rdStatus s, ?_, ?_, ?_, ?_, fun k hk => ?_⟩
  case refine_1 | refine_2 | refine_3 =>
    rw [getLsbD_statusWord]
    simp
  case refine_4 =>
    rw [getLsbD_statusWord, ← camFull_iff]
    simp
  case refine_5 =>
    rw [getLsbD_statusWord]
    simp [show k ≠ 0 by omega, show k ≠ 1 by omega, show k ≠ 2 by omega, show k ≠ 3 by omega]

/-! PORT_CFG (R138). -/

theorem exec_rdPortCfg (p : PortId) (s : State) : exec (.rdPortCfg p) s =
    .next (s.withResponse (some ⟨portCfgWord (portGet s.ports p), false⟩)) := rfl

/-- Settles O21: the address is mapped exactly for a port that exists. -/
theorem portCfgRead : Obligations.PortCfgRead := by
  intro s d p
  rw [portCfgAddr_eq, exec_rdPortCfg, portCfgWord_fields]
  exact ⟨fun hp => decodeHost_rdPortCfg hp d, fun hp => decodeHost_portCfg_noPort hp false d, rfl⟩

/-! Constants, counters and control registers. -/

/-- Settles O16: each row, and the constant or the counter that it shows. -/
theorem constantAndCounterReads : Obligations.ConstantAndCounterReads :=
  fun _ d => ⟨⟨decodeHost_read rfl rfl d, rfl⟩, ⟨decodeHost_read rfl rfl d, rfl⟩,
    ⟨decodeHost_read rfl rfl d, rfl⟩, ⟨decodeHost_read rfl rfl d, rfl⟩,
    ⟨decodeHost_read rfl rfl d, rfl⟩, ⟨decodeHost_read rfl rfl d, rfl⟩,
    ⟨decodeHost_read rfl rfl d, rfl⟩⟩

theorem exec_rdCtrl (s : State) :
    exec .rdCtrl s = .next (s.withResponse (some ⟨flagWord s.enable, false⟩)) := rfl

theorem exec_rdTpid (s : State) :
    exec .rdTpid s = .next (s.withResponse (some ⟨s.marker.zeroExtend 32, false⟩)) := rfl

theorem exec_rdAdminDown (s : State) : exec .rdAdminDown s =
    .next (s.withResponse (some ⟨s.adminDown &&& portMask s.params, false⟩)) := rfl

theorem exec_rdMode (s : State) :
    exec .rdMode s = .next (s.withResponse (some ⟨flagWord s.exitCheckEn, false⟩)) := rfl

theorem exec_rdCamIndex (s : State) :
    exec .rdCamIndex s = .next (s.withResponse (some ⟨s.camIndex.zeroExtend 32, false⟩)) := rfl

/-- Settles O17: a 1-bit field is shown as 0 or 1, and ADMIN_DOWN under the mask of the ports. -/
theorem controlReads : Obligations.ControlReads := by
  intro s d
  rw [exec_rdCtrl, exec_rdMode, flagWord_eq_ite, flagWord_eq_ite]
  exact ⟨⟨decodeHost_read rfl rfl d, rfl⟩,
    ⟨decodeHost_read rfl rfl d, exec_rdTpid s⟩,
    ⟨decodeHost_read rfl rfl d, _, exec_rdAdminDown s, getLsbD_and_portMask s.params s.adminDown⟩,
    ⟨decodeHost_read rfl rfl d, rfl⟩,
    ⟨decodeHost_read rfl rfl d, exec_rdCamIndex s⟩⟩

/-! LAST_DISP (R136). -/

theorem exec_rdLastDisp (s : State) : exec .rdLastDisp s =
    if dispReserved s.lastDisp.disp then .fault .reservedDisposition
    else .next (s.withResponse (some ⟨lastDispWord s.lastDisp, false⟩)) := rfl

theorem dispReserved_iff (code : BitVec 4) : dispReserved code = true ↔ 6 < code.toNat :=
  decide_eq_true_iff

/-- Settles O20, by whether the code is reserved. -/
theorem lastDispRead : Obligations.LastDispRead := by
  intro s d
  refine ⟨decodeHost_read rfl rfl d, fun hlegal => ?_, fun hreserved => ?_⟩
  · have hnot : ¬ dispReserved s.lastDisp.disp = true :=
      fun h => Nat.not_lt_of_le hlegal ((dispReserved_iff _).1 h)
    rw [exec_rdLastDisp, if_neg hnot, lastDispWord_fields]
  · rw [exec_rdLastDisp, if_pos ((dispReserved_iff _).2 hreserved)]

end Sys2Proof.Machine
end

