-- ==== Sys2Proof/Proofs/RegisterWrites.lean ====
section
/-! PROOFS. The host writes: the row that each address decodes to, and the whole state that its meaning
leaves. -/

namespace Sys2Proof.Machine

/-! Locked writes (10_state.md R16). -/

theorem lockedWrite_eq_ite (effect : State → State) (s : State) : lockedWrite effect s =
    if s.enable then .next (s.withResponse (some ⟨0, true⟩))
    else .next ((effect s).withResponse (some ⟨0, false⟩)) := rfl

/-- Settles O26: the lock decides between the error and the write of one port's slot. -/
theorem portCfgWrite : Obligations.PortCfgWrite := by
  intro s d p
  rw [portCfgAddr_eq, exec_wrPortCfg]
  refine ⟨fun hp => decodeHost_wrPortCfg hp d, fun hp => decodeHost_portCfg_noPort hp true d,
    lockedWrite_enabled _, fun he => ⟨_, lockedWrite_disabled _ he, ?_, fun q hq => ?_, rfl⟩⟩
  · exact portGet_portSet_same s.ports p (portCfgOf d)
  · exact portGet_portSet_other s.ports (portCfgOf d) (Ne.symm hq)

/-- Settles O25: both writes are locked writes of one field. -/
theorem tpidAndModeWrites : Obligations.TpidAndModeWrites := by
  intro s d
  rw [exec_wrTpid, exec_wrMode, lockedWrite_eq_ite, lockedWrite_eq_ite]
  exact ⟨⟨decodeHost_write rfl rfl, rfl⟩, ⟨decodeHost_write rfl rfl, rfl⟩⟩

/-! Writes that nothing locks. -/

/-- Settles O22: each row, and the meaning that ignores the write. -/
theorem readOnlyWritesIgnored : Obligations.ReadOnlyWritesIgnored := by
  intro s d k
  rw [counterAddr_eq]
  exact ⟨⟨decodeHost_write rfl rfl, rfl⟩, ⟨decodeHost_write rfl rfl, rfl⟩,
    ⟨decodeHost_write rfl rfl, rfl⟩, ⟨decodeHost_write rfl rfl, rfl⟩,
    ⟨decodeHost_write rfl rfl, rfl⟩, ⟨decodeHost_write rfl rfl, rfl⟩,
    ⟨decodeHost_write rfl rfl, rfl⟩⟩

/-- The flush and the change of ENABLE are one update (45_host_interface.md R121). -/
theorem writeCtrl_eq (d : Word) (s : State) : writeCtrl d s =
    { s with cam := if d.getLsbD 1 = true then [] else s.cam, enable := d.getLsbD 0 } := by
  unfold writeCtrl
  split <;> rfl

/-- Settles O23, by the one update that the write makes. -/
theorem ctrlWrite : Obligations.CtrlWrite := by
  intro s d
  rw [exec_wrCtrl, writeCtrl_eq]
  exact ⟨decodeHost_write rfl rfl, rfl⟩

theorem exec_wrStatus (d : Word) (s : State) :
    exec (.wrStatus d) s = .next ((writeStatus d s).withResponse (some ⟨0, false⟩)) := rfl

theorem w1c_eq_ite (bit w : Bool) : w1c bit w = if w = true then false else bit := by
  cases w <;> simp [w1c]

/-- Settles O24: the write is one W1C update of each sticky bit. -/
theorem statusWrite : Obligations.StatusWrite := by
  intro s d
  simp only [exec_wrStatus, writeStatus, w1c_eq_ite]
  exact ⟨decodeHost_write rfl rfl, rfl⟩

theorem exec_wrAdminDown (d : Word) (s : State) : exec (.wrAdminDown d) s =
    .next ((s.withAdminDown (d &&& portMask s.params)).withResponse (some ⟨0, false⟩)) := rfl

theorem exec_wrCamIndex (d : Word) (s : State) : exec (.wrCamIndex d) s =
    .next ((s.withCamIndex (d.extractLsb' 0 16)).withResponse (some ⟨0, false⟩)) := rfl

/-- Settles O27: neither meaning asks for ENABLE. -/
theorem dynamicControlWrites : Obligations.DynamicControlWrites :=
  fun s d => ⟨⟨decodeHost_write rfl rfl, _, exec_wrAdminDown d s, getLsbD_and_portMask s.params d⟩,
    decodeHost_write rfl rfl, exec_wrCamIndex d s⟩

end Sys2Proof.Machine
end

