-- ==== Sys2Proof/Proofs/ErrorResponses.lean ====
section
/-! PROOFS. The two cases in which a transaction completes with `err = 1` (60_exceptions.md R147),
by the instruction first, then by the request that it was decoded from. -/

namespace Sys2Proof.Machine

open Sys2Proof.Laws.EncodesInMap (isBusErr)

/-! The instructions that are turned away. -/

/-- The instruction writes a register that holds an RW-L field: TPID, MODE or PORT_CFG (10_state.md
R16). -/
def writesLocked : Instr → Bool
  | .wrTpid _ | .wrMode _ | .wrPortCfg _ _ => true
  | _ => false

/-- `turnedAway`, said by the instruction: BUS_ERR, or the write of a locked register while ENABLE
is 1. -/
def instrTurnedAway (s : State) (i : Instr) : Bool := isBusErr i || (s.enable && writesLocked i)

/-- The writes of locked registers are locked writes. -/
theorem exec_of_writesLocked {i : Instr} (hw : writesLocked i = true) (s : State) :
    ∃ effect, exec i s = lockedWrite effect s := by
  cases i
  case wrTpid d => exact ⟨_, exec_wrTpid d s⟩
  case wrMode d => exact ⟨_, exec_wrMode d s⟩
  case wrPortCfg p d => exact ⟨_, exec_wrPortCfg p d s⟩
  all_goals cases hw

/-- An instruction that is turned away answers `err = 1` and `rdata = 0` and does nothing else. -/
theorem exec_of_instrTurnedAway {i : Instr} {s : State} (h : instrTurnedAway s i = true) :
    exec i s = .next (s.withResponse (some ⟨0, true⟩)) := by
  rcases Bool.or_eq_true_iff.1 h with hbus | hlock
  · cases i <;> cases hbus
    exact exec_busErr _ s
  · obtain ⟨he, hw⟩ := Bool.and_eq_true_iff.1 hlock
    obtain ⟨effect, hx⟩ := exec_of_writesLocked hw s
    exact hx.trans (lockedWrite_enabled effect he)

/-- Every other host transaction, if it completes, does so without error. -/
theorem exec_response_of_not_instrTurnedAway {i : Instr} {s t : State} (hi : anyFrame i = none)
    (h : instrTurnedAway s i = false) (ht : exec i s = .next t) :
    ∃ d, t.response = some ⟨d, false⟩ := by
  obtain ⟨hbus, hlock⟩ := Bool.or_eq_false_iff.1 h
  have hopen (hw : writesLocked i = true) : ∃ d, t.response = some ⟨d, false⟩ := by
    obtain ⟨effect, hx⟩ := exec_of_writesLocked hw s
    rw [hw, Bool.and_true] at hlock
    rw [hx, lockedWrite_disabled effect hlock] at ht
    cases ht
    exact ⟨0, rfl⟩
  cases i
  case frameOversize | frameRunt | frameTaggedRunt | frameTaggedUcast | frameTaggedMcast |
      frameUntaggedUcast | frameUntaggedMcast => cases hi
  case busErr => cases hbus
  case wrTpid | wrMode | wrPortCfg => exact hopen rfl
  case rdLastDisp =>
    rw [exec_rdLastDisp] at ht
    split at ht
    · cases ht
    · cases ht; exact ⟨_, rfl⟩
  all_goals cases ht; exact ⟨_, rfl⟩

/-! The requests that they are decoded from. -/

/-- BUS_ERR apart, an instruction encodes to a write at a locked address exactly when it writes a
locked register. -/
theorem lockedAddr_of_encode {i : Instr} {q : HostReq} (hi : encode i = .host q)
    (hbus : isBusErr i = false) : (q.rw && lockedAddr q.addr) = writesLocked i := by
  have hcounter : ∀ k : BitVec 2, lockedAddr (counterAddr k) = false := by decide
  have hport : ∀ p : PortId, lockedAddr (portCfgAddr p) = true := by decide
  cases i <;> cases hi
  case busErr => cases hbus
  case wrCounter k d => exact hcounter k
  case wrPortCfg p d => exact hport p
  all_goals rfl

/-- A transaction decodes to BUS_ERR exactly when the register map does not hold its address. -/
theorem isBusErr_decodeHost (c : Params) (r : HostReq) :
    isBusErr (decodeHost c r) = !c.mapsAddr r.addr := by
  cases hm : c.mapsAddr r.addr with
  | false => rw [decodeHost_unmapped hm]; rfl
  | true =>
    have hw := decodeHost_wellFormed c 0 r
    have henc := encode_decodeHost c r
    cases hi : decodeHost c r
    case busErr t =>
      rw [hi] at hw henc
      injection henc with hreq
      injection hreq with _ haddr _
      have hunmapped : c.mapsAddr (t.extractLsb' 0 12) = false := Laws.EncodesInMap.busErr t c 0 hw
      rw [haddr, hm] at hunmapped
      cases hunmapped
    all_goals rfl

/-- A request is turned away exactly when the instruction that it decodes to is. -/
theorem turnedAway_eq (s : State) (r : HostReq) :
    turnedAway s r = instrTurnedAway s (decodeHost s.params r) := by
  rw [turnedAway, instrTurnedAway, ← isBusErr_decodeHost]
  cases hbus : isBusErr (decodeHost s.params r) with
  | true => rfl
  | false =>
    have hlock : (r.rw && lockedAddr r.addr) = writesLocked (decodeHost s.params r) :=
      (lockedAddr_of_encode (encode_decodeHost s.params r) hbus :)
    rw [← hlock, Bool.and_left_comm, Bool.and_assoc]

/-- Settles O29: by whether the decoded instruction is BUS_ERR or a locked write. -/
theorem errorResponsesExactly : Obligations.ErrorResponsesExactly := by
  intro s r
  rw [turnedAway_eq]
  exact ⟨exec_of_instrTurnedAway,
    fun _ => exec_response_of_not_instrTurnedAway (decodeHost_anyFrame s.params r)⟩

end Sys2Proof.Machine
end

