-- ==== Sys2Proof/Proofs/ResetAndHazards.lean ====
section
/-! PROOFS. Reset gives the values of 70_reset_and_hazards.md R157 and meets the invariant; and no step
changes the MAC of an entry that stays valid (R162), first for each operation that writes the table. -/

namespace Sys2Proof.Machine

/-! Reset (R157). -/

@[simp] theorem resetBlock_cam (s : State) : (resetBlock s).cam = [] := rfl

@[simp] theorem portGet_resetBlock_ports (s : State) (p : PortId) :
    portGet (resetBlock s).ports p = PortCfg.reset := portGet_replicate _ _

/-- In an empty table the read-back shows no entry, whatever CAM_INDEX is. -/
theorem camShown_of_nil {s : State} (hs : s.cam = []) : camShown s = none :=
  camShown_of_invalid (.inr (by rw [hs]; rfl))

/-- Settles O7: the constants by their read rows, the table's derived values from its being empty, the
ports slot by slot; every other value is a field of `resetBlock`. -/
theorem resetGivesTheTable : Obligations.ResetGivesTheTable := by
  intro s
  obtain ⟨⟨-, hid⟩, ⟨-, hnports⟩, ⟨-, hcamsize⟩, -⟩ := constantAndCounterReads (resetBlock s) 0
  have hshown := camShown_of_nil (resetBlock_cam s)
  have hlo : camDataLo (resetBlock s) = 0 := by rw [camDataLo, hshown]
  have hhi : camDataHi (resetBlock s) = 0 := by rw [camDataHi, hshown]
  exact ⟨hid, hnports, hcamsize, rfl, rfl, rfl, rfl, camFull_of_nil (resetBlock_cam s), rfl, rfl, rfl,
    rfl, hlo, hhi, rfl, rfl, rfl, rfl, rfl, portGet_resetBlock_ports s, fun _ => rfl, rfl, rfl,
    fun _ => step_reset rfl⟩

/-- Settles O8: the state after reset meets the invariant for all parameters, `Config.params` among
them. -/
theorem resetMeetsInv : Obligations.ResetMeetsInv :=
  ⟨resetWith_inv Config.params, resetWith_inv⟩

/-! The MACs of entries that stay valid (R162, R82). -/

/-- Every index that is valid in both tables holds the same MAC in both. -/
def KeepsMacs (before after : Cam) : Prop :=
  ∀ (k : Nat) (e e' : CamCell), camEntry? before k = some e → camEntry? after k = some e' →
    e'.mac = e.mac

theorem KeepsMacs.refl (cam : Cam) : KeepsMacs cam cam := by
  intro k e e' he he'
  cases he.symm.trans he'
  rfl

/-- In an emptied table no entry stays valid. -/
theorem keepsMacs_nil (cam : Cam) : KeepsMacs cam [] := by
  intro k e e' _ he'
  cases he'

/-- Overwriting a port leaves every MAC. -/
theorem keepsMacs_camMove (m : Mac) (p : PortId) (cam : Cam) : KeepsMacs cam (camMove m p cam) := by
  intro k e e' he he'
  rw [camEntry?_camMove, he, Option.map_some, Option.some.injEq] at he'
  subst he'
  split <;> rfl

/-- A new entry goes to an index that held none, so it takes the place of no valid entry. -/
theorem keepsMacs_camWrite {c : Params} {cam : Cam} {new : CamCell} (hw : Cam.wf c cam)
    (hfree : ∀ y ∈ cam, y.index ≠ new.index) : KeepsMacs cam (camWrite new cam) := by
  intro k e e' he he'
  obtain ⟨hmem, hindex⟩ := camEntry?_mem he
  have hk : k ≠ new.index := hindex ▸ hfree e hmem
  rw [camEntry?_camWrite hw hfree, if_neg hk] at he'
  exact KeepsMacs.refl cam k e e' he he'

/-- Learn changes the MAC of no valid entry (42_learning_cam.md R82). -/
theorem keepsMacs_learn {s : State} (m : Mac) (p : PortId) (hw : Cam.wf s.params s.cam) :
    KeepsMacs s.cam (learn m p s).cam := by
  rcases learn_cases m p s with ⟨_, -, h⟩ | ⟨k, -, hk, h⟩ | ⟨-, -, h⟩ <;> rw [h]
  · exact keepsMacs_camMove m p s.cam
  · exact keepsMacs_camWrite hw (camFree?_unused hk)
  · exact KeepsMacs.refl s.cam

theorem exec_frame_keepsMacs {i : Instr} {p : PortId} {raw : Frame} {s t : State}
    (hi : anyFrame i = some (p, raw)) (hw : Cam.wf s.params s.cam) (ht : exec i s = .next t) :
    KeepsMacs s.cam t.cam := by
  rcases anyFrame_cases hi s with ⟨d, -, -, hx⟩ | ⟨hf, -⟩
  · rw [hx] at ht
    injection ht with ht
    rw [← ht, raiseDrop_cam, acceptFrame_cam]
    exact KeepsMacs.refl s.cam
  · obtain ⟨h, -, hcam⟩ := exec_forwarded_cam hf ht
    rw [hcam]
    exact keepsMacs_learn h.src p hw

theorem exec_decodeHost_keepsMacs {s t : State} {r : HostReq}
    (ht : exec (decodeHost s.params r) s = .next t) : KeepsMacs s.cam t.cam := by
  obtain ⟨hcam, -⟩ := exec_decodeHost_cam ht
  rw [hcam]
  split
  · exact keepsMacs_nil s.cam
  · exact KeepsMacs.refl s.cam

/-- Only a flush, a reset and Learn write the table, and each keeps the MACs of the entries that stay
valid. -/
theorem step_keepsMacs {s t : State} (hs : MachineInv s) (ht : step s = .next t) :
    KeepsMacs s.cam t.cam := by
  rcases step_cases ht with ⟨-, rfl⟩ | ⟨e, rest, -, hcase⟩
  · exact KeepsMacs.refl _
  rcases hcase with ⟨r, -, hx⟩ | ⟨p, f, -, rfl⟩ | ⟨p, raw, -, -, hx⟩ | ⟨p, -, -, rfl⟩ | ⟨-, rfl⟩
  · exact exec_decodeHost_keepsMacs (s := s.withSchedule rest) hx
  · split <;> exact KeepsMacs.refl s.cam
  · exact exec_frame_keepsMacs (s := s.withSchedule rest) (decodeFrame_anyFrame _ _ _ _) hs.camWf hx
  · exact KeepsMacs.refl s.cam
  · exact keepsMacs_nil s.cam

/-- Settles O39: what every step keeps, at one index. -/
theorem validEntryKeepsItsMac : Obligations.ValidEntryKeepsItsMac :=
  fun _ _ k e e' hs ht => step_keepsMacs hs ht k e e'

end Sys2Proof.Machine
end
